-- ==== Sys2Proof/Word.lean ====
section
/-! DEFINITION. The word types of SRSER: words of the command interface, bytes, and levels (00_scope.md R8). -/

namespace Sys2Proof

/-- A command word or a response word: 32 bits, `CMD_W = RSP_W = 32` (00_scope.md R6). -/
abbrev Word := BitVec 32

/-- A port register (`PORT_W = 8`), a pin number, a register index or a local position as a field of a command. -/
abbrev Byte := BitVec 8

/-- A level is one bit: 1 is "high" and "true", 0 is "low" and "false" (00_scope.md R8). -/
abbrev Level := Bool

end Sys2Proof
end

