-- ==== Sys2Proof/Syntax.lean ====
section
/-! DEFINITION. The seven commands of SRSER (00_scope.md R10, 30_encoding.md R64), with the operands of R63, and the six
pseudo-instructions of R70. -/

namespace Sys2Proof

/-- One constructor per row of the opcode map (30_encoding.md R64). Operands are the fields of R63: unsigned, with no
scaling; a value outside the valid range is still an operand (R66). -/
inductive Instr where
  /-- `CFGDIR pin, v`: configureDirection (40_port_group.md R80) -/
  | cfgdir (pin : Byte) (v : Level)
  /-- `PINWR pin, v`: write (40_port_group.md R81) -/
  | pinwr (pin : Byte) (v : Level)
  /-- `PINRD pin`: read (40_port_group.md R82) -/
  | pinrd (pin : Byte)
  /-- `ABSPOS r, p`: absolutePosition (41_shift_chain.md R91) -/
  | abspos (r p : Byte)
  /-- `REGWR r, p, v`: registerWrite (41_shift_chain.md R92) -/
  | regwr (r p : Byte) (v : Level)
  /-- `INITCH r`: initChain (41_shift_chain.md R93) -/
  | initch (r : Byte)
  /-- `SHOUT`: shiftOut (41_shift_chain.md R95) -/
  | shout
  deriving DecidableEq, Repr

/-- The pseudo-instructions of 30_encoding.md R70; none has an opcode of its own. -/
inductive Pseudo where
  | output (pin : Byte)
  | input (pin : Byte)
  | pinhi (pin : Byte)
  | pinlo (pin : Byte)
  | setbit (r p : Byte)
  | clrbit (r p : Byte)
  deriving DecidableEq, Repr

/-- Each pseudo-instruction expands to exactly one command (30_encoding.md R70). -/
def Pseudo.expand : Pseudo → Instr
  | .output pin => .cfgdir pin true
  | .input pin => .cfgdir pin false
  | .pinhi pin => .pinwr pin true
  | .pinlo pin => .pinwr pin false
  | .setbit r p => .regwr r p true
  | .clrbit r p => .regwr r p false

end Sys2Proof
end

