-- ==== Sys2Proof/Decode.lean ====
section
/-! DEFINITION. The command decoder of 30_encoding.md (R60 to R66), total on every 32-bit word and rejecting by name, and
after it the encoder, written from the format patterns of R62. -/

namespace Sys2Proof

/-! The fields of a word (30_encoding.md R61). -/

/-- `W[31:28]`, the opcode. -/
def fieldOp (w : Word) : BitVec 4 := w.extractLsb' 28 4
/-- `W[23:16]`, first operand: a logical pin or a register index. -/
def fieldA (w : Word) : Byte := w.extractLsb' 16 8
/-- `W[15:8]`, second operand: a local position. -/
def fieldB (w : Word) : Byte := w.extractLsb' 8 8
/-- `W[0]`, a level or a direction. -/
def fieldV (w : Word) : Level := w.getLsbD 0

/-- Why a word is `Illegal` (30_encoding.md R65): its opcode is reserved, or a bit its format says must be 0 is 1. -/
inductive Illegal where
  | reservedOpcode
  | mustBeZero
  deriving DecidableEq, Repr

/-- One row of the opcode map: `W` is the command exactly when `(W & mask) = value` (30_encoding.md R64; the table's
column `match`). -/
structure OpRow where
  mnemonic : String
  op : BitVec 4
  value : Word
  mask : Word
  deriving DecidableEq, Repr

def rowCfgdir : OpRow := ⟨"CFGDIR", 0x1#4, 0x10000000#32, 0xFF00FFFE#32⟩
def rowPinwr : OpRow := ⟨"PINWR", 0x2#4, 0x20000000#32, 0xFF00FFFE#32⟩
def rowPinrd : OpRow := ⟨"PINRD", 0x3#4, 0x30000000#32, 0xFF00FFFF#32⟩
def rowAbspos : OpRow := ⟨"ABSPOS", 0x4#4, 0x40000000#32, 0xFF0000FF#32⟩
def rowRegwr : OpRow := ⟨"REGWR", 0x5#4, 0x50000000#32, 0xFF0000FE#32⟩
def rowInitch : OpRow := ⟨"INITCH", 0x6#4, 0x60000000#32, 0xFF00FFFF#32⟩
def rowShout : OpRow := ⟨"SHOUT", 0x7#4, 0x70000000#32, 0xFFFFFFFF#32⟩

/-- The opcode map of command set 1 (30_encoding.md R64). -/
def opTable : List OpRow :=
  [rowCfgdir, rowPinwr, rowPinrd, rowAbspos, rowRegwr, rowInitch, rowShout]

/-- The word is the command of this row. -/
def OpRow.hits (row : OpRow) (w : Word) : Bool := decide (w &&& row.mask = row.value)

/-- The row of a command. -/
def rowOf : Instr → OpRow
  | .cfgdir _ _ => rowCfgdir
  | .pinwr _ _ => rowPinwr
  | .pinrd _ => rowPinrd
  | .abspos _ _ => rowAbspos
  | .regwr _ _ _ => rowRegwr
  | .initch _ => rowInitch
  | .shout => rowShout

/-- Steps (2) and (3) of the decoder of 30_encoding.md R66: the mask of the opcode, then the operands. -/
def decodeRow (row : OpRow) (i : Instr) (w : Word) : Except Illegal Instr :=
  if row.hits w then .ok i else .error .mustBeZero

/-- The decoder of 30_encoding.md R66. It is total, and operand values are never a reason for `Illegal`. -/
def decode (w : Word) : Except Illegal Instr :=
  match (fieldOp w).toNat with
  | 1 => decodeRow rowCfgdir (.cfgdir (fieldA w) (fieldV w)) w
  | 2 => decodeRow rowPinwr (.pinwr (fieldA w) (fieldV w)) w
  | 3 => decodeRow rowPinrd (.pinrd (fieldA w)) w
  | 4 => decodeRow rowAbspos (.abspos (fieldA w) (fieldB w)) w
  | 5 => decodeRow rowRegwr (.regwr (fieldA w) (fieldB w) (fieldV w)) w
  | 6 => decodeRow rowInitch (.initch (fieldA w)) w
  | 7 => decodeRow rowShout .shout w
  | _ => .error .reservedOpcode

/-- The layout all formats share, `oooo 0000 aaaaaaaa bbbbbbbb 0000000v` with bit 31 on the left (30_encoding.md R61). -/
def layout (op : BitVec 4) (a b : Byte) (v : Level) : Word :=
  op ++ 0#4 ++ a ++ b ++ 0#7 ++ BitVec.ofBool v

/-- The word of a command: a field its format does not use is 0 (30_encoding.md R62). -/
def encode : Instr → Word
  | .cfgdir pin v => layout 0x1#4 pin 0#8 v
  | .pinwr pin v => layout 0x2#4 pin 0#8 v
  | .pinrd pin => layout 0x3#4 pin 0#8 false
  | .abspos r p => layout 0x4#4 r p false
  | .regwr r p v => layout 0x5#4 r p v
  | .initch r => layout 0x6#4 r 0#8 false
  | .shout => layout 0x7#4 0#8 0#8 false

/-- The command the decoder reads from an instruction whose bits are `w`, of which the table gives `nbits`. A command is
one 32-bit word presented whole (30_encoding.md R60): a value that needs more than 32 bits is no command. -/
def decodeTableWord (nbits w : Nat) : Option Instr :=
  if w % 2 ^ nbits < 2 ^ 32 then (decode (BitVec.ofNat 32 (w % 2 ^ nbits))).toOption else none

end Sys2Proof
end

