-- ==== Sys2Proof/Config.lean ====
section
/-! DEFINITION. The configuration of one SRSER instance (00_scope.md R5), the fixed constants (R6), and the free values:
opaque constants with no body, so that nothing can be proved about what they are. -/

namespace Sys2Proof

/-- The parameters of one instance (00_scope.md R5). They "never change for the chain's lifetime": a field of State
carries the record only because `step` has no other argument, and no step changes it (log 1). -/
structure Config where
  /-- `M`, the number of cascaded 8-bit registers the buffer images -/
  m : Nat
  /-- `PIN_DS`, the logical pin of the serial data line -/
  pinDs : Byte
  /-- `PIN_SHCP`, the logical pin of the shift clock -/
  pinShcp : Byte
  /-- `PIN_STCP`, the logical pin of the latch -/
  pinStcp : Byte
  /-- `PAD` = 1: one extra leading clock pulse in every ShiftOut (OPEN, 92_eei_decisions.md D10) -/
  pad : Bool
  /-- `T_STEP`, clock cycles per micro-step (OPEN, D17); no rule reads it (70_reset_and_hazards.md R152) -/
  tStep : Nat
  /-- `M_EXT`, the number of 8-bit registers physically in the external chain (environment, D20) -/
  mExt : Nat
  deriving DecidableEq, Repr

/-- `NBITS = 8*M`, the length of the buffer. -/
def Config.nbits (c : Config) : Nat := 8 * c.m

/-- `L = 8*M_EXT`, the number of stages of the external chain (42_external_chain.md R110). -/
def Config.stages (c : Config) : Nat := 8 * c.mExt

/-- `8*M + PAD`, the clock pulses of one ShiftOut (41_shift_chain.md R96). -/
def Config.pulses (c : Config) : Nat := c.nbits + c.pad.toNat

/-- The events of one ShiftOut (41_shift_chain.md R96). -/
def Config.shiftEvents (c : Config) : Nat := 2 + 3 * c.pulses

/-! The constants of 00_scope.md R6. -/

/-- First logical pin of range A. -/
abbrev groupAMin : Nat := 2
/-- Last logical pin of range A. -/
abbrev groupAMax : Nat := 7
/-- First logical pin of range B; subtracted to rebase. -/
abbrev groupBBase : Nat := 8
/-- Last logical pin of range B for direction and write. -/
abbrev groupBWriteMax : Nat := 12
/-- Last logical pin of range B for read. -/
abbrev groupBReadMax : Nat := 13
/-- Level returned by a read of an invalid pin (the spec's own choice, 92_eei_decisions.md D8). -/
abbrev readSentinel : Level := false

/-! The free values. -/

/-- `draw()` (00_scope.md R9): the level number `n` that no rule fixes. Every draw takes the next number, so that no
two draws are known to agree (log 4). -/
opaque Config.draw (n : Nat) : Level

/-- Stage `j` of the shift stage of the external chain at the `n`-th moment at which no rule gives the chain's
contents (42_external_chain.md R111, R118; log 10). -/
opaque Config.freeShift (n j : Nat) : Level

/-- Stage `j` of the output stage of the external chain at such a moment (log 10). -/
opaque Config.freeOut (n j : Nat) : Level

/-- The environment's levels of the eight pads of group A at reset (10_state.md R28; log 5). -/
opaque Config.freePadsA : Byte

/-- The environment's levels of the eight pads of group B at reset (10_state.md R28; log 5). -/
opaque Config.freePadsB : Byte

/-- `PAD` of the sample instance: the spec leaves it OPEN, so nothing can be proved about it (log 3). -/
opaque Config.openPad : Bool

/-- One less than `T_STEP` of the sample instance: OPEN (log 3). -/
opaque Config.openTStep : Nat

/-- The instance State.reset is about. DESIGN CHOICE (log 2): two registers, and the example wiring of
95_test_vectors.md (DS 7, SHCP 8, STCP 12, `M_EXT = M`). `PAD` and `T_STEP` stay open (log 3). -/
def Config.sample : Config where
  m := 2
  pinDs := 7
  pinShcp := 8
  pinStcp := 12
  pad := Config.openPad
  tStep := Config.openTStep + 1
  mExt := 2

end Sys2Proof
end

