-- ==== Sys2Proof/Machine/State.lean ====
section
/-! DEFINITION. The state of SRSER (10_state.md R20 to R36) and, in records of their own, what the fixed form of `step`
makes part of it: the configuration, the pads' levels, the external chain, and the moves still to be made. -/

namespace Sys2Proof.Machine

/-- An event: one pin operation issued by the block (20_memory.md R51). -/
inductive Event where
  /-- `EvDir(pin, v)` -/
  | dir (pin : Byte) (v : Level)
  /-- `EvWr(pin, v)` -/
  | wr (pin : Byte) (v : Level)
  /-- `EvRd(pin, v)` -/
  | rd (pin : Byte) (v : Level)
  deriving DecidableEq, Repr

/-- The outcome a response carries (30_encoding.md R67, R68), a sum type as R68 asks. -/
inductive Response where
  /-- status 0, `OK`: every command that completes -/
  | ok (value : BitVec 16)
  /-- status 1, `PIN_IGNORED`: a named outcome, not a fault (60_exceptions.md R123) -/
  | pinIgnored (value : BitVec 16)
  /-- status 2, `INDEX_RANGE` (60_exceptions.md R121) -/
  | indexRange
  /-- status 3, `ILLEGAL_COMMAND` (60_exceptions.md R122) -/
  | illegalCommand
  deriving DecidableEq, Repr

/-- `SEQ.phase` (10_state.md R31). -/
inductive Phase where
  | idle
  | latchLo
  | clkLo
  | data
  | clkHi
  | latchHi
  deriving DecidableEq, Repr

/-- The sequencer position `SEQ`, with the widths of 10_state.md R31. -/
structure Seq where
  /-- which pin write comes next; `idle` means no command in progress -/
  phase : Phase
  /-- buffer index of the bit being clocked; `8*M` marks the pad pulse -/
  idx : BitVec 11
  /-- 1 while an INITCH is in progress -/
  iact : Bool
  /-- register index latched by INITCH -/
  ireg : BitVec 8
  /-- local position INITCH is at -/
  ipos : BitVec 3
  deriving DecidableEq, Repr

/-- The two port groups as one record: the four stored registers (10_state.md R21 to R26) and the pad inputs
(60_exceptions.md R130). -/
structure Ports where
  dira : Byte
  outa : Byte
  dirb : Byte
  outb : Byte
  /-- the level the environment puts on each pad of group A; it shows only on an undriven pad (10_state.md R28) -/
  padA : Byte
  /-- the same of group B -/
  padB : Byte
  deriving DecidableEq, Repr

/-- The external register chain (42_external_chain.md R110): ENVIRONMENT, not SRSER. -/
structure ExtChain where
  /-- the shift stage `SH[0..L-1]`, stage 0 first -/
  sh : List Level
  /-- the output stage `Q[0..L-1]`, stage 0 first -/
  q : List Level
  /-- the model's own: how often the contents have become arbitrary (log 10) -/
  moments : Nat
  deriving DecidableEq, Repr

/-- A move of the host or of the environment (70_reset_and_hazards.md R142; log 6). -/
inductive Input where
  /-- the host offers a word and holds it until it is accepted (R146) -/
  | offer (w : Word)
  /-- the host asserts `rst` (R140, R141) -/
  | reset
  /-- the environment sets the levels of the pads (10_state.md R28, 20_memory.md R51) -/
  | pads (a b : Byte)
  /-- the host offers nothing for one micro-step -/
  | idle
  deriving DecidableEq, Repr

structure State where
  /-- the parameters of the instance; no step changes them (00_scope.md R5; log 1) -/
  cfg : Config
  /-- the port registers and the pad inputs -/
  ports : Ports
  /-- the bit buffer `BUF`, index 0 first (10_state.md R29) -/
  buf : List Level
  /-- the sequencer position (10_state.md R31) -/
  seq : Seq
  /-- the response port: the response pending, if any (10_state.md R36; log 8) -/
  rsp : Option Response
  /-- the model's own: the moves the host and the environment still have to make (log 6) -/
  inputs : List Input
  /-- the model's own: how many levels have been drawn (log 4) -/
  draws : Nat
  /-- the model's own: the trace of 20_memory.md R51, oldest event first; no rule reads it (log 9) -/
  trace : List Event
  /-- the external chain: ENVIRONMENT (42_external_chain.md R110; log 10) -/
  chain : ExtChain
  deriving DecidableEq, Repr

/-- What stops the machine. SRSER itself never halts (70_reset_and_hazards.md R152): its faults are responses. -/
inductive Fault where
  /-- Raised by the sequencer's micro-step (`seqStep`) where SEQ or BUF holds a value that 10_state.md R31 or R29 rules
  out, so that 41_shift_chain.md R97 has no row for it. No run reaches it. Safe: the machine stops (log 12). -/
  | sequencerOutOfRange
  deriving DecidableEq, Repr

/-- Why an instruction has no meaning. -/
inductive Refusal where
  /-- Raised by an arm of `exec` whose instruction has no meaning yet. Safe. No arm does so now. -/
  | notModelled (mnemonic : String)
  deriving DecidableEq, Repr

/-- `SEQ` after reset (10_state.md R36). -/
def Seq.reset : Seq := ⟨.idle, 0#11, false, 0#8, 0#3⟩

/-- Arbitrary contents of an external chain of `stages` stages, fresh for every `n` (42_external_chain.md R118; log 10). -/
def ExtChain.arbitrary (stages n : Nat) : ExtChain where
  sh := (List.range stages).map (Config.freeShift n)
  q := (List.range stages).map (Config.freeOut n)
  moments := n + 1

/-- The machine of configuration `c` right after power-on, which is modelled as a reset (70_reset_and_hazards.md R140):
the values of 10_state.md R36. The pads' levels and the external chain are the environment's: free values. -/
def State.powerOn (c : Config) : State where
  cfg := c
  ports := ⟨0x00#8, 0x00#8, 0x00#8, 0x00#8, Config.freePadsA, Config.freePadsB⟩
  buf := List.replicate c.nbits false
  seq := Seq.reset
  rsp := none
  inputs := []
  draws := 0
  trace := []
  chain := ExtChain.arbitrary c.stages 0

/-- The machine right after reset, of the sample instance (log 2). -/
def State.reset : State := State.powerOn Config.sample

end Sys2Proof.Machine
end

