-- ==== Sys2Proof/Machine/Flags.lean ====
section
/-! DEFINITION. SRSER has no flags, no condition codes and no sticky error bits (10_state.md R32). The only status the
host sees between responses is `busy`, a function of `SEQ`; the ports of 70_reset_and_hazards.md R142 that show a status
are functions too. -/

namespace Sys2Proof.Machine

/-- `busy = (SEQ.phase != IDLE)` (10_state.md R32). -/
def busy (s : State) : Bool := decide (s.seq.phase ≠ .idle)

/-- `cmd_ready = not busy` (70_reset_and_hazards.md R142). -/
def cmdReady (s : State) : Bool := !busy s

/-- The word the host offers now: `cmd_valid` and `cmd` (70_reset_and_hazards.md R142). -/
def cmdOffered (s : State) : Option Word :=
  match s.inputs with
  | .offer w :: _ => some w
  | _ => none

/-- The response word of 30_encoding.md R67: `status[31:28]`, 12 reserved zeros, `value[15:0]`; the codes of R68. -/
def Response.word : Response → Word
  | .ok v => 0#4 ++ 0#12 ++ v
  | .pinIgnored v => 1#4 ++ 0#12 ++ v
  | .indexRange => 2#4 ++ 0#12 ++ 0#16
  | .illegalCommand => 3#4 ++ 0#12 ++ 0#16

/-- `rsp_valid` and `rsp` (70_reset_and_hazards.md R142). -/
def rspPort (s : State) : Option Word := s.rsp.map Response.word

end Sys2Proof.Machine
end

