-- ==== Sys2Proof/Machine/Operands.lean ====
section
/-! DEFINITION. The operand forms of SRSER: the pin decodes that turn a logical pin into a port bit (20_memory.md R41 to
R43), and the index arithmetic that turns a register index and a local position into a buffer index
(41_shift_chain.md R90, R99). -/

namespace Sys2Proof.Machine

/-- The two port groups (10_state.md R21). -/
inductive Group where
  | a
  | b
  deriving DecidableEq, Repr

/-- The pin decode both ranges share: group A keeps the pin number, group B is rebased by 8; `bmax` is the last pin of
range B. -/
def decodePin (bmax : Nat) (pin : Byte) : Option (Group × Nat) :=
  if groupAMin ≤ pin.toNat ∧ pin.toNat ≤ groupAMax then some (.a, pin.toNat)
  else if groupBBase ≤ pin.toNat ∧ pin.toNat ≤ bmax then some (.b, pin.toNat - groupBBase)
  else none

/-- `DecodeW(pin)`: for direction and write (20_memory.md R41). -/
def decodeW (pin : Byte) : Option (Group × Nat) := decodePin groupBWriteMax pin

/-- `DecodeR(pin)`: for read, one pin wider (20_memory.md R42). -/
def decodeR (pin : Byte) : Option (Group × Nat) := decodePin groupBReadMax pin

/-- `IndexCheck(r, p)` (41_shift_chain.md R90). -/
def indexCheck (c : Config) (r p : Byte) : Bool :=
  decide (1 ≤ r.toNat) && decide (r.toNat ≤ c.m) && decide (p.toNat ≤ 7)

/-- `AbsPos(r, p) = (r - 1) * 8 + p`, an exact integer (41_shift_chain.md R90, R99). -/
def absPos (r p : Byte) : Nat := (r.toNat - 1) * 8 + p.toNat

/-- A level as the 16-bit value of a response, `zext_16` (30_encoding.md R67). -/
def levelValue (v : Level) : BitVec 16 := (BitVec.ofBool v).setWidth 16

end Sys2Proof.Machine
end

