-- ==== Sys2Proof/Machine/Ops.lean ====
section
/-! DEFINITION. The named operations over the state: single-bit accesses to the port registers and the buffer, the pad
model, the three port primitives, the response (which is how a fault is taken, 60_exceptions.md R126), reset, and the moves
of the environment. -/

namespace Sys2Proof.Machine

/-! ### Port registers (10_state.md R21 to R27) -/

/-- The six port registers. -/
inductive PortReg where
  | dira
  | outa
  | ina
  | dirb
  | outb
  | inb
  deriving DecidableEq, Repr

/-- The register numbers of 10_state.md R21; no command uses them. -/
def PortReg.number : PortReg → Nat
  | .dira => 0
  | .outa => 1
  | .ina => 2
  | .dirb => 3
  | .outb => 4
  | .inb => 5

/-- The direction register of a group. -/
def Group.dirReg : Group → PortReg
  | .a => .dira
  | .b => .dirb

/-- The output register of a group. -/
def Group.outReg : Group → PortReg
  | .a => .outa
  | .b => .outb

/-- The input register of a group. -/
def Group.inReg : Group → PortReg
  | .a => .ina
  | .b => .inb

/-- Bit `k` of a byte becomes `v`, every other bit keeps its value. -/
def setBit (w : Byte) (k : Nat) (v : Level) : Byte :=
  if v then w ||| (1#8 <<< k) else w &&& ~~~(1#8 <<< k)

/-- `DIRG[k]` (10_state.md R22, R25). -/
def dirBit (p : Ports) (g : Group) (k : Nat) : Level :=
  match g with
  | .a => p.dira.getLsbD k
  | .b => p.dirb.getLsbD k

/-- `OUTG[k]` (10_state.md R23, R26). -/
def outBit (p : Ports) (g : Group) (k : Nat) : Level :=
  match g with
  | .a => p.outa.getLsbD k
  | .b => p.outb.getLsbD k

/-- `env_level(Gk)`: the level the environment puts on pad `Gk` (10_state.md R28). -/
def envLevel (p : Ports) (g : Group) (k : Nat) : Level :=
  match g with
  | .a => p.padA.getLsbD k
  | .b => p.padB.getLsbD k

/-- `MemWrite(R, k, v)` on the port registers (20_memory.md R47). An input register is written by nothing
(10_state.md R24, R27). -/
def memWrite (r : PortReg) (k : Nat) (v : Level) (p : Ports) : Ports :=
  match r with
  | .dira => { p with dira := setBit p.dira k v }
  | .outa => { p with outa := setBit p.outa k v }
  | .dirb => { p with dirb := setBit p.dirb k v }
  | .outb => { p with outb := setBit p.outb k v }
  | .ina => p
  | .inb => p

/-- What the block puts on pad `Gk`: `OUTG[k]` when the pad is driven, nothing when it is not (10_state.md R28). -/
def padDrive (p : Ports) (g : Group) (k : Nat) : Option Level :=
  if dirBit p g k then some (outBit p g k) else none

/-! ### Draws and events -/

/-- One `draw()` (00_scope.md R9): a level no rule fixes, and the counter that makes the next one fresh (log 4). -/
def drawLevel (s : State) : Level × State := (Config.draw s.draws, { s with draws := s.draws + 1 })

/-- `emit E` (00_scope.md R9). -/
def emit (e : Event) (s : State) : State := { s with trace := s.trace ++ [e] }

/-- `ING[k]`, the sensed level of pad `Gk` (10_state.md R28): the environment's level when the pad is an input, a draw
when it is an output. -/
def sensed (g : Group) (k : Nat) (s : State) : Level × State :=
  if dirBit s.ports g k then drawLevel s else (envLevel s.ports g k, s)

/-- `MemRead(R, k)` (00_scope.md R9) for each of the six registers. -/
def memRead (r : PortReg) (k : Nat) (s : State) : Level × State :=
  match r with
  | .dira => (dirBit s.ports .a k, s)
  | .outa => (outBit s.ports .a k, s)
  | .ina => sensed .a k s
  | .dirb => (dirBit s.ports .b k, s)
  | .outb => (outBit s.ports .b k, s)
  | .inb => sensed .b k s

/-! ### The three port primitives (20_memory.md R44 to R46) -/

/-- What `PinDir` and `PinWrite` return. -/
inductive PinDone where
  | done
  | ignored
  deriving DecidableEq, Repr

/-- What `PinRead` returns. -/
inductive PinLevel where
  | value (v : Level)
  | ignoredValue (v : Level)
  deriving DecidableEq, Repr

/-- `PinDir(pin, v)` (20_memory.md R44). -/
def pinDir (pin : Byte) (v : Level) (s : State) : PinDone × State :=
  match decodeW pin with
  | some (g, k) => (.done, { emit (.dir pin v) s with ports := memWrite g.dirReg k v s.ports })
  | none => (.ignored, emit (.dir pin v) s)

/-- `PinWrite(pin, v)` (20_memory.md R45). -/
def pinWrite (pin : Byte) (v : Level) (s : State) : PinDone × State :=
  match decodeW pin with
  | some (g, k) => (.done, { emit (.wr pin v) s with ports := memWrite g.outReg k v s.ports })
  | none => (.ignored, emit (.wr pin v) s)

/-- `PinRead(pin)` (20_memory.md R46). -/
def pinRead (pin : Byte) (s : State) : PinLevel × State :=
  match decodeR pin with
  | some (g, k) => (.value (memRead g.inReg k s).1, emit (.rd pin (memRead g.inReg k s).1) (memRead g.inReg k s).2)
  | none => (.ignoredValue readSentinel, emit (.rd pin readSentinel) s)

/-! ### The buffer (10_state.md R29, R30) -/

/-- `BUF[i] <- v`: that one bit changes, no other (20_memory.md R48). -/
def bufWrite (i : Nat) (v : Level) (s : State) : State := { s with buf := s.buf.set i v }

/-- The byte whose bit `p` is bit `(r-1)*8 + p` of a list of levels: the image `SR_r` of the buffer (10_state.md R30), and
the output byte `OB_r` of the chain's output stage (42_external_chain.md R115). -/
def imageByte (bits : List Level) (r : Nat) : Nat :=
  ((List.range 8).map fun p => (bits.getD ((r - 1) * 8 + p) false).toNat * 2 ^ p).sum

/-! ### Responses; taking a fault -/

/-- `respond(status, value)` (00_scope.md R9): the response port holds the response. A fault is this and nothing else
(60_exceptions.md R126): no state but the response port changes, control goes nowhere, nothing is latched, and there is
nothing to return from (R127). -/
def respond (q : Response) (s : State) : State := { s with rsp := some q }

/-- The response of CFGDIR and PINWR (40_port_group.md R80, R81). -/
def PinDone.response : PinDone → Response
  | .done => .ok 0#16
  | .ignored => .pinIgnored 0#16

/-- The response of PINRD (40_port_group.md R82). -/
def PinLevel.response : PinLevel → Response
  | .value v => .ok (levelValue v)
  | .ignoredValue v => .pinIgnored (levelValue v)

/-! ### Reset and the environment's moves -/

/-- `rst` (70_reset_and_hazards.md R140, R141): the state of SRSER becomes that of 10_state.md R36. The configuration, the
pads' levels and the trace so far stay: they are not SRSER's to reset. -/
def resetState (s : State) : State :=
  { s with
    ports := { s.ports with dira := 0x00#8, outa := 0x00#8, dirb := 0x00#8, outb := 0x00#8 }
    buf := List.replicate s.cfg.nbits false
    seq := Seq.reset
    rsp := none }

/-- The environment puts new levels on the pads (20_memory.md R51). -/
def envPads (a b : Byte) (s : State) : State := { s with ports := { s.ports with padA := a, padB := b } }

end Sys2Proof.Machine
end

