-- ==== Sys2Proof/Machine/PortGroup.lean ====
section
/-! DEFINITION. The port-group commands CFGDIR, PINWR and PINRD (40_port_group.md R80 to R83), each the whole of one
micro-step (41_shift_chain.md R97). -/

namespace Sys2Proof.Machine

/-- CFGDIR (40_port_group.md R80). -/
def execCfgdir (pin : Byte) (v : Level) (s : State) : Host.Outcome State Fault Refusal :=
  .next (respond (pinDir pin v s).1.response (pinDir pin v s).2)

/-- PINWR (40_port_group.md R81). -/
def execPinwr (pin : Byte) (v : Level) (s : State) : Host.Outcome State Fault Refusal :=
  .next (respond (pinWrite pin v s).1.response (pinWrite pin v s).2)

/-- PINRD (40_port_group.md R82). -/
def execPinrd (pin : Byte) (s : State) : Host.Outcome State Fault Refusal :=
  .next (respond (pinRead pin s).1.response (pinRead pin s).2)

end Sys2Proof.Machine
end

