-- ==== Sys2Proof/Machine/ShiftChain.lean ====
section
/-! DEFINITION. The chain commands ABSPOS, REGWR, INITCH and SHOUT (41_shift_chain.md R90 to R95): the micro-step that
accepts each of them (R97). What REGWR, INITCH and SHOUT do after it is the sequencer's (Machine/Sequencer.lean). -/

namespace Sys2Proof.Machine

/-- The accepting micro-step of a command that goes on to a ShiftOut: no response is pending, and the sequencer is at the
first event (41_shift_chain.md R97). -/
def startShift (iact : Bool) (s : State) : State :=
  { s with seq := { s.seq with phase := .latchLo, iact := iact }, rsp := none }

/-- ABSPOS (41_shift_chain.md R91): a pure function of its operands and `M`. -/
def execAbspos (r p : Byte) (s : State) : Host.Outcome State Fault Refusal :=
  if indexCheck s.cfg r p then .next (respond (.ok (BitVec.ofNat 16 (absPos r p))) s)
  else .next (respond .indexRange s)

/-- REGWR (41_shift_chain.md R92, R97): the one bit, then a full ShiftOut whatever the bit held. -/
def execRegwr (r p : Byte) (v : Level) (s : State) : Host.Outcome State Fault Refusal :=
  if indexCheck s.cfg r p then .next (startShift false (bufWrite (absPos r p) v s))
  else .next (respond .indexRange s)

/-- INITCH (41_shift_chain.md R93, R97): the first of the eight local positions, in ascending order. -/
def execInitch (r : Byte) (s : State) : Host.Outcome State Fault Refusal :=
  if indexCheck s.cfg r 0#8 then
    .next (startShift true (bufWrite (absPos r 0#8) false { s with seq := { s.seq with ireg := r, ipos := 0#3 } }))
  else .next (respond .indexRange s)

/-- SHOUT (41_shift_chain.md R95, R97). -/
def execShout (s : State) : Host.Outcome State Fault Refusal :=
  .next (startShift false s)

end Sys2Proof.Machine
end

