-- ==== Sys2Proof/Machine/Dispatch.lean ====
section
/-! DEFINITION. One arm per command: its accepting micro-step (41_shift_chain.md R97). -/

namespace Sys2Proof.Machine

def exec (i : Instr) (s : State) : Host.Outcome State Fault Refusal :=
  match i with
  | .cfgdir pin v => Sys2Proof.Machine.execCfgdir pin v s
  | .pinwr pin v => Sys2Proof.Machine.execPinwr pin v s
  | .pinrd pin => Sys2Proof.Machine.execPinrd pin s
  | .abspos r p => Sys2Proof.Machine.execAbspos r p s
  | .regwr r p v => Sys2Proof.Machine.execRegwr r p v s
  | .initch r => Sys2Proof.Machine.execInitch r s
  | .shout => Sys2Proof.Machine.execShout s

end Sys2Proof.Machine
end

