-- ==== Sys2Proof/WellFormed.lean ====
section
/-! DEFINITION. What is well formed. A configuration has the ranges of 00_scope.md R5. Every term of Instr is a command:
the type of an operand is exactly its field (30_encoding.md R63), and an operand value is never a reason to refuse a word
(R66), so Instr needs no check. -/

namespace Sys2Proof

/-- The ranges of 00_scope.md R5. The three control pins may be any 8-bit value: nothing checks them
(70_reset_and_hazards.md R148). -/
def Config.wf (c : Config) : Bool :=
  decide (1 ≤ c.m) && decide (c.m ≤ 255) && decide (1 ≤ c.tStep) && decide (1 ≤ c.mExt)

/-- A valid write pin lies in [2,7] or [8,12] (00_scope.md, glossary). -/
def validWritePin (pin : Byte) : Bool :=
  (decide (groupAMin ≤ pin.toNat) && decide (pin.toNat ≤ groupAMax)) ||
    (decide (groupBBase ≤ pin.toNat) && decide (pin.toNat ≤ groupBWriteMax))

/-- A valid read pin lies in [2,7] or [8,13] (00_scope.md, glossary). -/
def validReadPin (pin : Byte) : Bool :=
  (decide (groupAMin ≤ pin.toNat) && decide (pin.toNat ≤ groupAMax)) ||
    (decide (groupBBase ≤ pin.toNat) && decide (pin.toNat ≤ groupBReadMax))

/-- Parts (a) and (b) of `WF_CHAIN` (00_scope.md R7): the control pins are valid write pins and pairwise different. -/
def Config.wfPins (c : Config) : Bool :=
  validWritePin c.pinDs && validWritePin c.pinShcp && validWritePin c.pinStcp &&
    decide (c.pinDs ≠ c.pinShcp) && decide (c.pinDs ≠ c.pinStcp) && decide (c.pinShcp ≠ c.pinStcp)

end Sys2Proof
end

