-- ==== Sys2Proof/Machine/ExternalChain.lean ====
section
/-! DEFINITION. ENVIRONMENT: the reference model of the external register chain (42_external_chain.md). It reacts to the
levels of the three control lines; no rule of SRSER reads it. -/

namespace Sys2Proof.Machine

/-- The level SRSER puts on the line of a control pin: the output bit when the pad is driven, nothing otherwise
(42_external_chain.md R111). -/
def lineDrive (pin : Byte) (p : Ports) : Option Level :=
  match decodeW pin with
  | some (g, k) => padDrive p g k
  | none => none

/-- `WF_CHAIN` (00_scope.md R7): the control pins are valid write pins, pairwise different, and outputs now. -/
def wfChain (s : State) : Bool :=
  s.cfg.wfPins && (lineDrive s.cfg.pinDs s.ports).isSome && (lineDrive s.cfg.pinShcp s.ports).isSome &&
    (lineDrive s.cfg.pinStcp s.ports).isSome

/-- A rising edge is a change of the level from 0 to 1 (42_external_chain.md R111). -/
def rising (before after : Option Level) : Bool :=
  decide (before = some false) && decide (after = some true)

/-- The clock's rising edge: every stage moves up by one, the last one's old value is lost, `d` enters stage 0
(42_external_chain.md R112). -/
def ExtChain.clock (d : Level) (c : ExtChain) : ExtChain := { c with sh := (d :: c.sh).dropLast }

/-- The latch's rising edge: the output stage takes the shift stage (42_external_chain.md R113). -/
def ExtChain.latch (c : ExtChain) : ExtChain := { c with q := c.sh }

/-- The chain's reaction to a rising edge of the clock line, then of the latch line; nothing else changes it
(42_external_chain.md R114). One micro-step writes one pin, so both edges never come together (log 17). -/
def ExtChain.react (shcpEdge stcpEdge : Bool) (d : Level) (c : ExtChain) : ExtChain :=
  if stcpEdge then (if shcpEdge then c.clock d else c).latch
  else if shcpEdge then c.clock d else c

/-- The chain after a move that took SRSER from `before` to `after`. While `WF_CHAIN` holds it reacts to the edges the move
made; where it does not hold no rule gives its contents and they become arbitrary (42_external_chain.md R111, R118; log 10). -/
def chainAfter (before after : State) : ExtChain :=
  if wfChain before && wfChain after then
    after.chain.react
      (rising (lineDrive before.cfg.pinShcp before.ports) (lineDrive after.cfg.pinShcp after.ports))
      (rising (lineDrive before.cfg.pinStcp before.ports) (lineDrive after.cfg.pinStcp after.ports))
      ((lineDrive after.cfg.pinDs after.ports).getD false)
  else ExtChain.arbitrary after.cfg.stages after.chain.moments

/-- The move from `before` to `after`, together with what the external chain makes of it. -/
def settle (before after : State) : State := { after with chain := chainAfter before after }

/-- `settle` on an outcome. -/
def settleOutcome (before : State) (o : Host.Outcome State Fault Refusal) : Host.Outcome State Fault Refusal :=
  match o with
  | .next after => .next (settle before after)
  | .fault f => .fault f
  | .refused r => .refused r

end Sys2Proof.Machine
end

