-- ==== Sys2Proof/Machine/Sequencer.lean ====
section
/-! DEFINITION. The sequencer: the micro-steps of a command in progress (41_shift_chain.md R97), one event each. -/

namespace Sys2Proof.Machine

/-- The sequencer goes to a phase. -/
def toPhase (ph : Phase) (s : State) : State := { s with seq := { s.seq with phase := ph } }

/-- Row `LATCH_LO`: latch low, and the counter at the first bit to clock, `8*M - 1 + PAD`. -/
def seqLatchLo (s : State) : State :=
  toPhase .clkLo
    { (pinWrite s.cfg.pinStcp false s).2 with
      seq := { s.seq with idx := BitVec.ofNat 11 (s.cfg.nbits - 1 + s.cfg.pad.toNat) } }

/-- Row `CLK_LO`: clock low. -/
def seqClkLo (s : State) : State := toPhase .data (pinWrite s.cfg.pinShcp false s).2

/-- The two rows of `DATA`: the pad bit is a draw, any other bit is the buffer's. An index that is neither has no row. -/
def seqData (s : State) : Host.Outcome State Fault Refusal :=
  if s.seq.idx.toNat = s.cfg.nbits then
    .next (toPhase .clkHi (pinWrite s.cfg.pinDs (drawLevel s).1 (drawLevel s).2).2)
  else
    match s.buf[s.seq.idx.toNat]? with
    | some d => .next (toPhase .clkHi (pinWrite s.cfg.pinDs d s).2)
    | none => .fault .sequencerOutOfRange

/-- The two rows of `CLK_HI`: clock high, then the next bit or the latch. -/
def seqClkHi (s : State) : State :=
  if s.seq.idx = 0#11 then toPhase .latchHi (pinWrite s.cfg.pinShcp true s).2
  else
    toPhase .clkLo
      { (pinWrite s.cfg.pinShcp true s).2 with seq := { s.seq with idx := s.seq.idx - 1#11 } }

/-- The two rows of `LATCH_HI`: latch high, then the next local position of an INITCH, or the response. A latched register
index outside `1 .. M` has no row (10_state.md R31). -/
def seqLatchHi (s : State) : Host.Outcome State Fault Refusal :=
  if s.seq.iact && decide (s.seq.ipos.toNat < 7) then
    if indexCheck s.cfg s.seq.ireg 0#8 then
      .next (toPhase .latchLo
        (bufWrite (absPos s.seq.ireg ((s.seq.ipos + 1#3).setWidth 8)) false
          { (pinWrite s.cfg.pinStcp true s).2 with seq := { s.seq with ipos := s.seq.ipos + 1#3 } }))
    else .fault .sequencerOutOfRange
  else
    .next (respond (.ok 0#16)
      (toPhase .idle { (pinWrite s.cfg.pinStcp true s).2 with seq := { s.seq with iact := false } }))

/-- One micro-step of the sequencer (41_shift_chain.md R97). In `IDLE`, with no word accepted, nothing changes
(70_reset_and_hazards.md R152). -/
def seqStep (s : State) : Host.Outcome State Fault Refusal :=
  match s.seq.phase with
  | .idle => .next s
  | .latchLo => .next (seqLatchLo s)
  | .clkLo => .next (seqClkLo s)
  | .data => seqData s
  | .clkHi => .next (seqClkHi s)
  | .latchHi => seqLatchHi s

/-- One micro-step of the sequencer and what the external chain makes of it. -/
def tick (s : State) : Host.Outcome State Fault Refusal := settleOutcome s (seqStep s)

end Sys2Proof.Machine
end

