-- ==== Sys2Proof/Machine/Step.lean ====
section
/-! DEFINITION. One step of the machine: the next move of the host or the environment, or a micro-step of SRSER
(70_reset_and_hazards.md R142; log 6). -/

namespace Sys2Proof.Machine

/-- The micro-step in which an idle SRSER accepts a word: the command it decodes to, or the fault of an illegal word
(41_shift_chain.md R97, 60_exceptions.md R122, R125). -/
def accept (w : Word) (s : State) : Host.Outcome State Fault Refusal :=
  match decode w with
  | .ok i => exec i s
  | .error _ => .next (respond .illegalCommand s)

/-- One step. A reset or a change of the pads is a step of its own. Otherwise SRSER takes a micro-step: an offered word is
accepted only while SRSER is not busy, and otherwise waits unchanged (70_reset_and_hazards.md R146). -/
def step (s : State) : Host.Outcome State Fault Refusal :=
  match s.inputs with
  | [] => tick s
  | .idle :: rest => tick { s with inputs := rest }
  | .pads a b :: rest => settleOutcome s (.next (envPads a b { s with inputs := rest }))
  | .reset :: rest => settleOutcome s (.next (resetState { s with inputs := rest }))
  | .offer w :: rest => if busy s then tick s else settleOutcome s (accept w { s with inputs := rest })

/-- `s` with the word `w` on the command port of an idle SRSER, so that the next step accepts it (log 19). -/
def State.withFetchWord (s : State) (nbits w : Nat) : State :=
  { s with
    seq := { s.seq with phase := .idle }
    inputs := .offer (BitVec.ofNat 32 (w % 2 ^ nbits)) :: s.inputs }

end Sys2Proof.Machine
end

