-- ==== Sys2Proof/Machine/Assembler.lean ====
section
/-! DEFINITION. The assembler of 30_encoding.md R69 with the pseudo-instructions of R70: first on a line already split into
its mnemonic and its operands, then on a line of text. The assembler accepts every operand value that fits its field and no
other. -/

namespace Sys2Proof.Machine

/-- An operand that fits an 8-bit field. -/
def asmByte (n : Nat) : Option Byte := if n < 256 then some (BitVec.ofNat 8 n) else none

/-- An operand that is a level, 0 or 1. -/
def asmLevel (n : Nat) : Option Level := if n < 2 then some (decide (n = 1)) else none

/-- The word a line of assembly stands for (30_encoding.md R69, R70); `.word` may write an illegal word. -/
def assemble (mnemonic : String) (operands : List Nat) : Option Word :=
  match mnemonic, operands with
  | "CFGDIR", [pin, v] => do return encode (.cfgdir (← asmByte pin) (← asmLevel v))
  | "PINWR", [pin, v] => do return encode (.pinwr (← asmByte pin) (← asmLevel v))
  | "PINRD", [pin] => do return encode (.pinrd (← asmByte pin))
  | "ABSPOS", [r, p] => do return encode (.abspos (← asmByte r) (← asmByte p))
  | "REGWR", [r, p, v] => do return encode (.regwr (← asmByte r) (← asmByte p) (← asmLevel v))
  | "INITCH", [r] => do return encode (.initch (← asmByte r))
  | "SHOUT", [] => some (encode .shout)
  | ".word", [x] => if x < 2 ^ 32 then some (BitVec.ofNat 32 x) else none
  | "OUTPUT", [pin] => do return encode (Pseudo.expand (.output (← asmByte pin)))
  | "INPUT", [pin] => do return encode (Pseudo.expand (.input (← asmByte pin)))
  | "PINHI", [pin] => do return encode (Pseudo.expand (.pinhi (← asmByte pin)))
  | "PINLO", [pin] => do return encode (Pseudo.expand (.pinlo (← asmByte pin)))
  | "SETBIT", [r, p] => do return encode (Pseudo.expand (.setbit (← asmByte r) (← asmByte p)))
  | "CLRBIT", [r, p] => do return encode (Pseudo.expand (.clrbit (← asmByte r) (← asmByte p)))
  | _, _ => none

/-! A line of text: `MNEMONIC operands`, operands separated by commas, numbers decimal or `0x` hexadecimal, `;` starting a
comment (30_encoding.md R69). -/

/-- A space or a tab. -/
def isBlank (c : Char) : Bool := c = ' ' || c = '\t'

/-- A text without the blanks at its ends. -/
def trimBlanks (text : List Char) : List Char := ((text.dropWhile isBlank).reverse.dropWhile isBlank).reverse

/-- The value of one digit, if it is a digit of this base (10 or 16). -/
def digitValue (base : Nat) (c : Char) : Option Nat :=
  if '0'.toNat ≤ c.toNat ∧ c.toNat ≤ '9'.toNat then some (c.toNat - '0'.toNat)
  else if base = 16 ∧ 'A'.toNat ≤ c.toNat ∧ c.toNat ≤ 'F'.toNat then some (c.toNat - 'A'.toNat + 10)
  else if base = 16 ∧ 'a'.toNat ≤ c.toNat ∧ c.toNat ≤ 'f'.toNat then some (c.toNat - 'a'.toNat + 10)
  else none

/-- The digits, most significant first, that follow digits of value `n`. -/
def readDigits (base : Nat) : List Char → Nat → Option Nat
  | [], n => some n
  | c :: cs, n => (digitValue base c).bind fun d => readDigits base cs (n * base + d)

/-- A number, decimal or `0x` hexadecimal. -/
def readNumber (text : List Char) : Option Nat :=
  match text with
  | [] => none
  | ['0', 'x'] => none
  | '0' :: 'x' :: digits => readDigits 16 digits 0
  | digits => readDigits 10 digits 0

/-- The parts of a text between its commas. -/
def splitCommas : List Char → List (List Char)
  | [] => [[]]
  | c :: cs =>
    match c == ',', splitCommas cs with
    | true, parts => [] :: parts
    | false, part :: parts => (c :: part) :: parts
    | false, [] => [[c]]

/-- The operands of a line, none where nothing follows the mnemonic. -/
def readOperands (text : List Char) : Option (List Nat) :=
  match trimBlanks text with
  | [] => some []
  | operands => (splitCommas operands).mapM fun operand => readNumber (trimBlanks operand)

/-- The word a line of text stands for. -/
def assembleLine (line : List Char) : Option Word :=
  let code := (line.takeWhile (· != ';')).dropWhile isBlank
  (readOperands (code.dropWhile fun c => !isBlank c)).bind
    (assemble (String.ofList (code.takeWhile fun c => !isBlank c)))

end Sys2Proof.Machine
end

