-- ==== Sys2Proof/Machine/BigStep.lean ====
section
/-! DEFINITION. The big-step rules of the chain commands, R92 to R95 of 41_shift_chain.md, as their pseudocode stands. They
define the same executions as the sequencer's table (R97); statements say that they agree. Each access is complete, and
seen by the external chain, before the next begins (20_memory.md R51): every pin write is settled. -/

namespace Sys2Proof.Machine

/-- One control-pin write of a ShiftOut, and what the external chain makes of it. -/
def lineWrite (pin : Byte) (v : Level) (s : State) : State := settle s (pinWrite pin v s).2

/-- One iteration of the loop of `ShiftOut()`: clock low, data, clock high (41_shift_chain.md R94). -/
def clockBit (d : Level) (s : State) : State :=
  lineWrite s.cfg.pinShcp true (lineWrite s.cfg.pinDs d (lineWrite s.cfg.pinShcp false s))

/-- The loop `for i = n-1 downto 0` of `ShiftOut()`. -/
def sendBits : Nat → State → State
  | 0, s => s
  | i + 1, s => sendBits i (clockBit (s.buf.getD i false) s)

/-- The pad pulse of `ShiftOut()`, with a draw on the data line (41_shift_chain.md R94). -/
def padPulse (s : State) : State :=
  if s.cfg.pad then
    let low := lineWrite s.cfg.pinShcp false s
    lineWrite s.cfg.pinShcp true (lineWrite s.cfg.pinDs (drawLevel low).1 (drawLevel low).2)
  else s

/-- The procedure `ShiftOut()` (41_shift_chain.md R94). -/
def shiftOut (s : State) : State :=
  lineWrite s.cfg.pinStcp true (sendBits s.cfg.nbits (padPulse (lineWrite s.cfg.pinStcp false s)))

/-- The sequencer after a command has run to completion. -/
def atRest (s : State) : State :=
  { s with seq := { s.seq with phase := .idle, idx := 0#11, iact := false } }

/-- SHOUT as one big step (41_shift_chain.md R95). -/
def bigShout (s : State) : State :=
  atRest (respond (.ok 0#16) (shiftOut (settle s s)))

/-- REGWR as one big step (41_shift_chain.md R92). -/
def bigRegwr (r p : Byte) (v : Level) (s : State) : State :=
  if indexCheck s.cfg r p then atRest (respond (.ok 0#16) (shiftOut (settle s (bufWrite (absPos r p) v s))))
  else settle s (respond .indexRange s)

/-- The eight sequential writes of INITCH from local position `p` on, `n + 1` of them, each with its ShiftOut
(41_shift_chain.md R93). -/
def clearBits (r : Byte) : Nat → Nat → State → State
  | 0, p, s => shiftOut (bufWrite (absPos r 0#8 + p) false s)
  | n + 1, p, s => clearBits r n (p + 1) (shiftOut (bufWrite (absPos r 0#8 + p) false s))

/-- INITCH as one big step (41_shift_chain.md R93); the sequencer keeps the register index and the last position. -/
def bigInitch (r : Byte) (s : State) : State :=
  if indexCheck s.cfg r 0#8 then
    atRest (respond (.ok 0#16) (clearBits r 7 0 (settle s { s with seq := { s.seq with ireg := r, ipos := 7#3 } })))
  else settle s (respond .indexRange s)

/-- The micro-steps of an accepted word, acceptance included (70_reset_and_hazards.md R151). -/
def microSteps (c : Config) : Instr → Nat
  | .regwr r p _ => if indexCheck c r p then 1 + c.shiftEvents else 1
  | .initch r => if indexCheck c r 0#8 then 1 + 8 * c.shiftEvents else 1
  | .shout => 1 + c.shiftEvents
  | .cfgdir _ _ | .pinwr _ _ | .pinrd _ | .abspos _ _ => 1

/-- The events of a command (70_reset_and_hazards.md R151). -/
def eventCount (c : Config) : Instr → Nat
  | .regwr r p _ => if indexCheck c r p then c.shiftEvents else 0
  | .initch r => if indexCheck c r 0#8 then 8 * c.shiftEvents else 0
  | .shout => c.shiftEvents
  | .cfgdir _ _ | .pinwr _ _ | .pinrd _ => 1
  | .abspos _ _ => 0

end Sys2Proof.Machine
end

