-- ==== Sys2Proof/Safety.lean ====
section
/-! DEFINITION. What counts as a safe state and a safe run, in the terms the statements use. -/

namespace Sys2Proof.Machine

/-- The port bits that no operation reaches hold 0 (20_memory.md R43): `DIRA[1:0]`, `OUTA[1:0]`, `DIRB[7:5]`,
`OUTB[7:5]`. -/
def Ports.wf (p : Ports) : Bool :=
  decide (p.dira &&& 0x03#8 = 0#8) && decide (p.outa &&& 0x03#8 = 0#8) &&
    decide (p.dirb &&& 0xE0#8 = 0#8) && decide (p.outb &&& 0xE0#8 = 0#8)

/-- The canonical form of SRSER's storage: the buffer has `8*M` bits (10_state.md R29), and the unreachable port bits hold
0. -/
def Memory.wf (s : State) : Bool := decide (s.buf.length = s.cfg.nbits) && s.ports.wf

/-- The ranges of the sequencer position (10_state.md R31): the counter in `0 .. 8*M`, at `8*M` only with a pad pulse; the
latched register index in `1 .. M` while an INITCH is in progress; no INITCH in progress in `IDLE`. -/
def seqWf (s : State) : Bool :=
  decide (s.seq.idx.toNat ≤ s.cfg.nbits) &&
    (s.cfg.pad || decide (s.seq.idx.toNat < s.cfg.nbits)) &&
    (!s.seq.iact || indexCheck s.cfg s.seq.ireg 0#8) &&
    (busy s || !s.seq.iact)

/-- No response is pending while a command is in progress: the response comes after the last event (30_encoding.md R67). -/
def rspWf (s : State) : Bool := !busy s || s.rsp.isNone

/-- The external chain has its `8*M_EXT` stages (42_external_chain.md R110). -/
def chainWf (s : State) : Bool :=
  decide (s.chain.sh.length = s.cfg.stages) && decide (s.chain.q.length = s.cfg.stages)

/-- The invariant of the machine. -/
def State.Inv (s : State) : Prop :=
  s.cfg.wf = true ∧ Memory.wf s = true ∧ seqWf s = true ∧ rspWf s = true ∧ chainWf s = true

/-- The port registers went from `before` to `after` by a write of `v` to the output bit of `pin`: one bit of one output
register, and none where `DecodeW(pin)` gives no bit (20_memory.md R45, R47). -/
def WritesOutBit (pin : Byte) (v : Level) (before after : Ports) : Prop :=
  after = (match decodeW pin with
    | some (g, k) => memWrite g.outReg k v before
    | none => before) ∧
  ∀ g k, outBit after g k = (if decodeW pin = some (g, k) then v else outBit before g k) ∧
    dirBit after g k = dirBit before g k

/-- The same of the direction bit of `pin` (20_memory.md R44, R47). -/
def WritesDirBit (pin : Byte) (v : Level) (before after : Ports) : Prop :=
  after = (match decodeW pin with
    | some (g, k) => memWrite g.dirReg k v before
    | none => before) ∧
  ∀ g k, dirBit after g k = (if decodeW pin = some (g, k) then v else dirBit before g k) ∧
    outBit after g k = outBit before g k

/-- `n` steps of the machine. -/
def runSteps (n : Nat) (s : State) : Host.Outcome State Fault Refusal := Sys2Proof.core.run n s

/-- SRSER is idle and the only move to come is the host's offer of command `i`. -/
def offersOnly (i : Instr) (s : State) : Prop := busy s = false ∧ s.inputs = [.offer (encode i)]

/-- The boot sequence of 70_reset_and_hazards.md R143, parts (1) and (2): the three control pins made outputs, then INITCH of
every register. -/
def bootCommands (c : Config) : List Instr :=
  [.cfgdir c.pinStcp true, .cfgdir c.pinShcp true, .cfgdir c.pinDs true] ++
    (List.range c.m).map fun k => .initch (BitVec.ofNat 8 (k + 1))

end Sys2Proof.Machine
end

