-- ==== Sys2Proof/Certificates/Slice0/Obligations.lean ====
section
/-! DEFINITION. The statements for the provers. Each docstring names the rule or the section of spec/ it comes from. -/

open Sys2Proof Sys2Proof.Machine

/-! ### Encoding (30_encoding.md) -/

/-- Decoding the word of a command gives the command back, with every operand at every value (R62, R63, R66). -/
def Obligations.DecodeOfEncodeIsTheCommand : Prop :=
  ∀ i : Instr, decode (encode i) = .ok i

/-- A word that decodes to a command is the one word of that command: no two words mean the same (R62, R64). -/
def Obligations.LegalWordIsTheEncodingOfItsCommand : Prop :=
  ∀ (w : Word) (i : Instr), decode w = .ok i → encode i = w

/-- R64: the match and the mask of each row; a word is the command of a row exactly when it matches under the mask; the
rows are pairwise disjoint. -/
def Obligations.WordIsTheCommandExactlyWhenItsRowMatches : Prop :=
  (opTable.map fun row => (row.mnemonic, row.value, row.mask)) =
    [("CFGDIR", 0x10000000#32, 0xFF00FFFE#32), ("PINWR", 0x20000000#32, 0xFF00FFFE#32),
      ("PINRD", 0x30000000#32, 0xFF00FFFF#32), ("ABSPOS", 0x40000000#32, 0xFF0000FF#32),
      ("REGWR", 0x50000000#32, 0xFF0000FE#32), ("INITCH", 0x60000000#32, 0xFF00FFFF#32),
      ("SHOUT", 0x70000000#32, 0xFFFFFFFF#32)] ∧
  ∀ (w : Word), ∀ row ∈ opTable,
    (w &&& row.mask = row.value ↔ ∃ i, decode w = .ok i ∧ rowOf i = row) ∧
    ∀ row' ∈ opTable, w &&& row.mask = row.value → w &&& row'.mask = row'.value → row' = row

/-- R62, R65: a word is a legal command exactly when its opcode is 1 to 7, the two reserved fields are 0, and so is every
field its format does not use. -/
def Obligations.WordIsLegalExactlyWhenItsUnusedFieldsAreZero : Prop :=
  ∀ w : Word,
    (∃ i, decode w = .ok i) ↔
      (1 ≤ w.toNat / 2 ^ 28 ∧ w.toNat / 2 ^ 28 ≤ 7) ∧
      w.extractLsb' 24 4 = 0#4 ∧ w.extractLsb' 1 7 = 0#7 ∧
      (w.toNat / 2 ^ 28 ∈ [1, 2, 3, 6, 7] → w.extractLsb' 8 8 = 0#8) ∧
      (w.toNat / 2 ^ 28 ∈ [3, 4, 6, 7] → w.getLsbD 0 = false) ∧
      (w.toNat / 2 ^ 28 = 7 → w.extractLsb' 16 8 = 0#8)

/-- R63: every operand is its field as an unsigned integer, with no scaling, shifting or sign extension. -/
def Obligations.OperandsAreTheirFieldsUnscaled : Prop :=
  ∀ (w : Word) (i : Instr), decode w = .ok i →
    match i with
    | .cfgdir pin v => pin.toNat = w.toNat / 2 ^ 16 % 256 ∧ v.toNat = w.toNat % 2
    | .pinwr pin v => pin.toNat = w.toNat / 2 ^ 16 % 256 ∧ v.toNat = w.toNat % 2
    | .pinrd pin => pin.toNat = w.toNat / 2 ^ 16 % 256
    | .abspos r p => r.toNat = w.toNat / 2 ^ 16 % 256 ∧ p.toNat = w.toNat / 2 ^ 8 % 256
    | .regwr r p v =>
        r.toNat = w.toNat / 2 ^ 16 % 256 ∧ p.toNat = w.toNat / 2 ^ 8 % 256 ∧ v.toNat = w.toNat % 2
    | .initch r => r.toNat = w.toNat / 2 ^ 16 % 256
    | .shout => True

/-- Sanity: words written out in tables T0a and T0b of 95_test_vectors.md, one of each family and some illegal ones. -/
def Obligations.SampleWordsDecodeAsTheSpecSays : Prop :=
  decode 0x10090001 = .ok (.cfgdir 9 true) ∧ decode 0x20050001 = .ok (.pinwr 5 true) ∧
  decode 0x300D0000 = .ok (.pinrd 13) ∧ decode 0x40020700 = .ok (.abspos 2 7) ∧
  decode 0x50010301 = .ok (.regwr 1 3 true) ∧ decode 0x60020000 = .ok (.initch 2) ∧
  decode 0x70000000 = .ok .shout ∧ decode 0x5000FF01 = .ok (.regwr 0 255 true) ∧
  decode 0x00000000 = .error .reservedOpcode ∧ decode 0x80000000 = .error .reservedOpcode ∧
  decode 0x11090001 = .error .mustBeZero ∧ decode 0x300D0001 = .error .mustBeZero

/-- R67, R68: `status` in bits 31 to 28 with its code, bits 27 to 16 zero, `value` in bits 15 to 0, zero-extended. -/
def Obligations.ResponseWordCarriesStatusAndValue : Prop :=
  (∀ v : BitVec 16, (Response.ok v).word.toNat = v.toNat) ∧
  (∀ v : BitVec 16, (Response.pinIgnored v).word.toNat = 1 * 2 ^ 28 + v.toNat) ∧
  Response.indexRange.word.toNat = 2 * 2 ^ 28 ∧ Response.illegalCommand.word.toNat = 3 * 2 ^ 28

/-- R70: each pseudo-instruction stands for the same word as the one command it expands to, whatever its operands; and for
operands that fit their 8-bit fields it is that command's word. -/
def Obligations.PseudoInstructionsAssembleToOneCommand : Prop :=
  ∀ r p : Nat,
    assemble "OUTPUT" [p] = assemble "CFGDIR" [p, 1] ∧ assemble "INPUT" [p] = assemble "CFGDIR" [p, 0] ∧
    assemble "PINHI" [p] = assemble "PINWR" [p, 1] ∧ assemble "PINLO" [p] = assemble "PINWR" [p, 0] ∧
    assemble "SETBIT" [r, p] = assemble "REGWR" [r, p, 1] ∧ assemble "CLRBIT" [r, p] = assemble "REGWR" [r, p, 0] ∧
    (p < 256 →
      assemble "OUTPUT" [p] = some (encode (.cfgdir (BitVec.ofNat 8 p) true)) ∧
      assemble "INPUT" [p] = some (encode (.cfgdir (BitVec.ofNat 8 p) false)) ∧
      assemble "PINHI" [p] = some (encode (.pinwr (BitVec.ofNat 8 p) true)) ∧
      assemble "PINLO" [p] = some (encode (.pinwr (BitVec.ofNat 8 p) false)) ∧
      (r < 256 →
        assemble "SETBIT" [r, p] = some (encode (.regwr (BitVec.ofNat 8 r) (BitVec.ofNat 8 p) true)) ∧
        assemble "CLRBIT" [r, p] = some (encode (.regwr (BitVec.ofNat 8 r) (BitVec.ofNat 8 p) false))))

/-! ### One step: accepting words, reset, the environment (41 R97, 70_reset_and_hazards.md) -/

/-- An idle SRSER that is offered the word of a command takes one step, which is that command's accepting micro-step, with
the word taken from the port and what the external chain makes of the move (41 R97, 70 R142). The list of moves that holds the
offer, and the chain's reaction after each step, are the model's choice (log 6, log 10). -/
def Obligations.IdleStepRunsTheDecodedCommand : Prop :=
  ∀ (s : State) (w : Word) (rest : List Input) (i : Instr),
    busy s = false → s.inputs = .offer w :: rest → decode w = .ok i →
    step s = settleOutcome s (exec i { s with inputs := rest })

/-- The word placed by `withFetchWord` is the one the very next step runs, whatever the machine was doing (log 19). -/
def Obligations.PlacedWordIsRunByTheNextStep : Prop :=
  ∀ (s : State) (i : Instr),
    step (s.withFetchWord 32 (encode i).toNat) =
      settleOutcome { s with seq := { s.seq with phase := .idle } }
        (exec i { s with seq := { s.seq with phase := .idle } })

/-- R122: an illegal word changes no state and issues no event; its response has status 3 and value 0. -/
def Obligations.IllegalWordOnlyGivesItsResponse : Prop :=
  ∀ (s : State) (w : Word) (rest : List Input) (e : Illegal),
    busy s = false → s.inputs = .offer w :: rest → decode w = .error e →
    ∃ t, step s = .next t ∧ t = { s with inputs := rest, rsp := t.rsp, chain := t.chain } ∧
      rspPort t = some 0x30000000

/-- R146: while SRSER is busy an offered word is not accepted: it stays, unchanged, and the step is the one SRSER would take
if nothing were offered. That it waits at the head of the list of moves is the model's choice (log 7). -/
def Obligations.OfferedWordWaitsWhileBusy : Prop :=
  ∀ (s t : State) (w : Word) (rest : List Input),
    busy s = true → s.inputs = .offer w :: rest → step s = .next t →
    cmdReady s = false ∧ cmdOffered t = some w ∧ t.inputs = s.inputs ∧
      step { s with inputs := [] } = .next { t with inputs := [] }

/-- R140, R141: a reset, at any moment, leaves every port register 0, every buffer bit 0, the sequencer in IDLE with its
other fields 0, and no response pending; it issues no event and takes back none, and changes no parameter. That the pads'
levels and the draw counter stay is the model's choice (log 4, log 5). -/
def Obligations.ResetGivesEveryRegisterItsResetValue : Prop :=
  ∀ (s : State) (rest : List Input), s.inputs = .reset :: rest →
    ∃ t, step s = .next t ∧
      t.ports = ⟨0x00, 0x00, 0x00, 0x00, s.ports.padA, s.ports.padB⟩ ∧
      t.buf.length = 8 * s.cfg.m ∧ (∀ b ∈ t.buf, b = false) ∧
      t.seq = ⟨.idle, 0#11, false, 0#8, 0#3⟩ ∧ busy t = false ∧ t.rsp = none ∧
      t.trace = s.trace ∧ t.cfg = s.cfg ∧ t.inputs = rest ∧ t.draws = s.draws

/-- R36: the same values right after power-on, for every configuration; no pad is driven, so the input registers show the
environment's levels. That the external chain's contents, which R118 leaves open, are `ExtChain.arbitrary` with its counter at
0 is the model's form of them (log 10). -/
def Obligations.PowerOnGivesEveryRegisterItsResetValue : Prop :=
  ∀ c : Config,
    (State.powerOn c).ports.dira = 0 ∧ (State.powerOn c).ports.outa = 0 ∧
    (State.powerOn c).ports.dirb = 0 ∧ (State.powerOn c).ports.outb = 0 ∧
    (State.powerOn c).buf = List.replicate (8 * c.m) false ∧
    (State.powerOn c).seq = ⟨.idle, 0#11, false, 0#8, 0#3⟩ ∧ (State.powerOn c).rsp = none ∧
    (∀ g k, padDrive (State.powerOn c).ports g k = none ∧
      (memRead g.inReg k (State.powerOn c)).1 = envLevel (State.powerOn c).ports g k) ∧
    (State.powerOn c).chain = ExtChain.arbitrary c.stages 0

/-- R152: while SRSER is idle and the host offers no word, SRSER changes no state; and while `WF_CHAIN` holds the external
chain does not move either, so the step changes nothing at all. -/
def Obligations.QuiescentStepChangesNothing : Prop :=
  ∀ s : State, busy s = false → s.inputs = [] →
    ∃ t, step s = .next t ∧ t = { s with chain := t.chain } ∧ (wfChain s = true → t = s)

/-- 20 R51, 60 R124: a move of the environment changes the pads' levels and nothing of SRSER; a chain whose lines are driven
does not see it. That such a move is a step of its own is the model's choice (log 5, log 6). -/
def Obligations.PadMoveChangesOnlyThePadLevels : Prop :=
  ∀ (s : State) (a b : Byte) (rest : List Input), s.inputs = .pads a b :: rest →
    ∃ t, step s = .next t ∧
      t = { s with inputs := rest, ports := { s.ports with padA := a, padB := b }, chain := t.chain } ∧
      (wfChain s = true → t.chain = s.chain)

/-! ### Port-group commands (20_memory.md, 40_port_group.md) -/

/-- R44 with the ranges of R41: CFGDIR always completes; it writes the direction bit of a pin in 2 to 7 (group A, bit = pin)
or 8 to 12 (group B, bit = pin - 8) and nothing else but the response and its one event; any other pin is ignored. -/
def Obligations.CfgdirWritesOneDirectionBit : Prop :=
  ∀ (pin : Byte) (v : Level) (s : State), ∃ t, exec (.cfgdir pin v) s = .next t ∧
    t.trace = s.trace ++ [.dir pin v] ∧
    t = { s with
          ports := { s.ports with dira := t.ports.dira, dirb := t.ports.dirb }
          rsp := t.rsp, trace := t.trace } ∧
    if 2 ≤ pin.toNat ∧ pin.toNat ≤ 7 then
      t.rsp = some (.ok 0#16) ∧ t.ports.dirb = s.ports.dirb ∧
        ∀ j < 8, t.ports.dira.getLsbD j = if j = pin.toNat then v else s.ports.dira.getLsbD j
    else if 8 ≤ pin.toNat ∧ pin.toNat ≤ 12 then
      t.rsp = some (.ok 0#16) ∧ t.ports.dira = s.ports.dira ∧
        ∀ j < 8, t.ports.dirb.getLsbD j = if j = pin.toNat - 8 then v else s.ports.dirb.getLsbD j
    else t.rsp = some (.pinIgnored 0#16) ∧ t.ports = s.ports

/-- R45 with the ranges of R41: the same of PINWR and the output bit; the direction bit is neither read nor changed. -/
def Obligations.PinwrWritesOneOutputBit : Prop :=
  ∀ (pin : Byte) (v : Level) (s : State), ∃ t, exec (.pinwr pin v) s = .next t ∧
    t.trace = s.trace ++ [.wr pin v] ∧
    t = { s with
          ports := { s.ports with outa := t.ports.outa, outb := t.ports.outb }
          rsp := t.rsp, trace := t.trace } ∧
    if 2 ≤ pin.toNat ∧ pin.toNat ≤ 7 then
      t.rsp = some (.ok 0#16) ∧ t.ports.outb = s.ports.outb ∧
        ∀ j < 8, t.ports.outa.getLsbD j = if j = pin.toNat then v else s.ports.outa.getLsbD j
    else if 8 ≤ pin.toNat ∧ pin.toNat ≤ 12 then
      t.rsp = some (.ok 0#16) ∧ t.ports.outa = s.ports.outa ∧
        ∀ j < 8, t.ports.outb.getLsbD j = if j = pin.toNat - 8 then v else s.ports.outb.getLsbD j
    else t.rsp = some (.pinIgnored 0#16) ∧ t.ports = s.ports

/-- R46 with the ranges of R42 and the sensed level of 10 R28: PINRD always completes and changes no register. The value is
the environment's level of an input pad, a draw for an output pad, the sentinel 0 for an invalid pin. That a draw is
`Config.draw` of a counter is the model's choice of form (log 4). -/
def Obligations.PinrdReturnsTheSensedLevel : Prop :=
  ∀ (pin : Byte) (s : State), ∃ (t : State) (v : Level), exec (.pinrd pin) s = .next t ∧
    t = { s with rsp := t.rsp, trace := s.trace ++ [.rd pin v], draws := t.draws } ∧
    if 2 ≤ pin.toNat ∧ pin.toNat ≤ 7 then
      t.rsp = some (.ok (if v then 1 else 0)) ∧
        if s.ports.dira.getLsbD pin.toNat then v = Config.draw s.draws ∧ t.draws = s.draws + 1
        else v = s.ports.padA.getLsbD pin.toNat ∧ t.draws = s.draws
    else if 8 ≤ pin.toNat ∧ pin.toNat ≤ 13 then
      t.rsp = some (.ok (if v then 1 else 0)) ∧
        if s.ports.dirb.getLsbD (pin.toNat - 8) then v = Config.draw s.draws ∧ t.draws = s.draws + 1
        else v = s.ports.padB.getLsbD (pin.toNat - 8) ∧ t.draws = s.draws
    else t.rsp = some (.pinIgnored 0#16) ∧ v = false ∧ t.draws = s.draws

/-- 40 R81 (c), the document's pins 5 and 9: a write or a direction change of one pin perturbs no bit of another pin. -/
def Obligations.OnePinNeverPerturbsAnother : Prop :=
  ∀ (p q : Byte) (v : Level) (s t : State), p ≠ q →
    exec (.pinwr p v) s = .next t ∨ exec (.cfgdir p v) s = .next t →
    ∀ g k, decodeW q = some (g, k) →
      outBit t.ports g k = outBit s.ports g k ∧ dirBit t.ports g k = dirBit s.ports g k

/-- R48: a read changes no register; `PinDir` and `PinWrite` are idempotent on the registers but not on the trace, and a
repeated write makes no edge; a buffer store changes one bit. (The draw counter is the model's own, log 4.) -/
def Obligations.PortWritesAreIdempotentOnTheRegisters : Prop :=
  (∀ (pin : Byte) (s : State),
    (pinRead pin s).2 = { s with trace := (pinRead pin s).2.trace, draws := (pinRead pin s).2.draws }) ∧
  (∀ (pin : Byte) (v : Level) (s : State),
    (pinDir pin v (pinDir pin v s).2).2.ports = (pinDir pin v s).2.ports ∧
    (pinDir pin v (pinDir pin v s).2).2.trace = s.trace ++ [.dir pin v, .dir pin v]) ∧
  (∀ (pin : Byte) (v : Level) (s : State),
    (pinWrite pin v (pinWrite pin v s).2).2.ports = (pinWrite pin v s).2.ports ∧
    (pinWrite pin v (pinWrite pin v s).2).2.trace = s.trace ++ [.wr pin v, .wr pin v] ∧
    (wfChain (pinWrite pin v s).2 = true →
      chainAfter (pinWrite pin v s).2 (pinWrite pin v (pinWrite pin v s).2).2 = (pinWrite pin v s).2.chain)) ∧
  (∀ (i : Nat) (v : Level) (s : State) (j : Nat),
    (bufWrite i v s).buf[j]? = if j = i then s.buf[j]?.map fun _ => v else s.buf[j]?)

/-- 10 R28, 40 R80 (b) and (c): making a pin an output starts driving what its output bit already holds; making it an input
stops the drive; a write shows on the pad exactly when the pin is an output. -/
def Obligations.PadIsDrivenExactlyWhenThePinIsAnOutput : Prop :=
  ∀ (pin : Byte) (v : Level) (g : Group) (k : Nat) (s : State), decodeW pin = some (g, k) →
    (∃ t, exec (.cfgdir pin true) s = .next t ∧ padDrive t.ports g k = some (outBit s.ports g k)) ∧
    (∃ t, exec (.cfgdir pin false) s = .next t ∧ padDrive t.ports g k = none) ∧
    (∃ t, exec (.pinwr pin v) s = .next t ∧
      padDrive t.ports g k = if dirBit s.ports g k then some v else none)

/-- 20 R47, "exactly one bit in one hardware register": a step of SRSER (every step but a reset and a move of the
environment) writes at most one bit of one port register, and this is the bit: in IDLE the direction bit of the pin of an
accepted CFGDIR, the output bit of the pin of an accepted PINWR, and no bit otherwise; in any other phase the output bit of
the control pin of that row of 41 R97. That the level of the pad pulse is `Config.draw` of a counter is the model's form of a
free value (log 4). -/
def Obligations.EveryMicroStepWritesAtMostOnePortBit : Prop :=
  ∀ s t : State, step s = .next t →
    (∀ rest, s.inputs ≠ .reset :: rest) → (∀ a b rest, s.inputs ≠ .pads a b :: rest) →
    match s.seq.phase with
    | .idle =>
        match (cmdOffered s).map decode with
        | some (.ok (.cfgdir pin v)) => WritesDirBit pin v s.ports t.ports
        | some (.ok (.pinwr pin v)) => WritesOutBit pin v s.ports t.ports
        | _ => t.ports = s.ports
    | .latchLo => WritesOutBit s.cfg.pinStcp false s.ports t.ports
    | .clkLo => WritesOutBit s.cfg.pinShcp false s.ports t.ports
    | .data =>
        WritesOutBit s.cfg.pinDs
          (if s.seq.idx.toNat = 8 * s.cfg.m then Config.draw s.draws else s.buf.getD s.seq.idx.toNat false)
          s.ports t.ports
    | .clkHi => WritesOutBit s.cfg.pinShcp true s.ports t.ports
    | .latchHi => WritesOutBit s.cfg.pinStcp true s.ports t.ports

/-! ### Chain commands (41_shift_chain.md) -/

/-- R91: ABSPOS answers `(r-1)*8 + p` for a register index in `1 .. M` and a local position in `0 .. 7`, and IndexRange for any
other pair; nothing but the response changes, and no event is issued. -/
def Obligations.AbsposAnswersThePosition : Prop :=
  ∀ (r p : Byte) (s : State),
    decode (0x4#4 ++ 0#4 ++ r ++ p ++ 0#8) = .ok (.abspos r p) ∧
    if 1 ≤ r.toNat ∧ r.toNat ≤ s.cfg.m ∧ p.toNat ≤ 7 then
      ∃ q : BitVec 16, q.toNat = (r.toNat - 1) * 8 + p.toNat ∧
        exec (.abspos r p) s = .next { s with rsp := some (.ok q) }
    else exec (.abspos r p) s = .next { s with rsp := some .indexRange }

/-- R90, R99: under `IndexCheck` the position is in `0 .. 8*M-1` and is the concatenation `(r-1) ++ p[2:0]`; the inverse is
`i div 8 + 1`, `i mod 8`; every index is the position of some pair. -/
def Obligations.PositionsAreABijectionOntoTheBuffer : Prop :=
  ∀ c : Config, c.wf = true →
    (∀ r p, indexCheck c r p = true →
      absPos r p < 8 * c.m ∧ ((r - 1) ++ p.extractLsb' 0 3 : BitVec 11).toNat = absPos r p ∧
      r.toNat = absPos r p / 8 + 1 ∧ p.toNat = absPos r p % 8) ∧
    (∀ r p r' p', indexCheck c r p = true → indexCheck c r' p' = true → absPos r p = absPos r' p' → r = r' ∧ p = p') ∧
    ∀ i < 8 * c.m, ∃ r p, indexCheck c r p = true ∧ absPos r p = i

/-- R121: IndexRange is raised by ABSPOS and REGWR when `r = 0`, `r > M` or `p > 7`, by INITCH when `r = 0` or `r > M`, and by
nothing else; its effect is the response, status 2 and value 0, and nothing more. -/
def Obligations.IndexFaultHasNoEffectButItsResponse : Prop :=
  Response.indexRange.word = 0x20000000 ∧
  (∀ (r p : Byte) (v : Level) (s : State), r.toNat = 0 ∨ s.cfg.m < r.toNat ∨ 7 < p.toNat →
    exec (.abspos r p) s = .next { s with rsp := some .indexRange } ∧
    exec (.regwr r p v) s = .next { s with rsp := some .indexRange }) ∧
  (∀ (r : Byte) (s : State), r.toNat = 0 ∨ s.cfg.m < r.toNat →
    exec (.initch r) s = .next { s with rsp := some .indexRange }) ∧
  (∀ (i : Instr) (s t : State), exec i s = .next t → t.rsp = some .indexRange →
    (∃ r p, (i = .abspos r p ∨ ∃ v, i = .regwr r p v) ∧ (r.toNat = 0 ∨ s.cfg.m < r.toNat ∨ 7 < p.toNat)) ∨
    ∃ r, i = .initch r ∧ (r.toNat = 0 ∨ s.cfg.m < r.toNat)) ∧
  ∀ s t : State, step s = .next t → t.rsp = some .indexRange →
    s.rsp = some .indexRange ∨
    (busy s = false ∧ ∃ w rest i, s.inputs = .offer w :: rest ∧ decode w = .ok i ∧
      ∃ u, exec i { s with inputs := rest } = .next u ∧ u.rsp = some .indexRange)

/-- The rows of R97 that accept REGWR, INITCH and SHOUT: the one buffer bit, the latched operands, the sequencer at its first
event, no response yet; every other part of the state is as before. That the response of the command before goes then is the
model's choice (log 8). -/
def Obligations.ChainCommandsStartTheSequencer : Prop :=
  ∀ s : State,
    (∀ (r p : Byte) (v : Level), 1 ≤ r.toNat ∧ r.toNat ≤ s.cfg.m ∧ p.toNat ≤ 7 →
      ∃ t, exec (.regwr r p v) s = .next t ∧
        t = { s with buf := t.buf, seq := { s.seq with phase := .latchLo, iact := false }, rsp := none } ∧
        ∀ j, t.buf[j]? = if j = (r.toNat - 1) * 8 + p.toNat then s.buf[j]?.map fun _ => v else s.buf[j]?) ∧
    (∀ r : Byte, 1 ≤ r.toNat ∧ r.toNat ≤ s.cfg.m →
      ∃ t, exec (.initch r) s = .next t ∧
        t = { s with
              buf := t.buf
              seq := { s.seq with phase := .latchLo, iact := true, ireg := r, ipos := 0#3 }
              rsp := none } ∧
        ∀ j, t.buf[j]? = if j = (r.toNat - 1) * 8 then s.buf[j]?.map fun _ => false else s.buf[j]?) ∧
    exec .shout s =
      .next { s with seq := { s.seq with phase := .latchLo, iact := false }, rsp := none }

/-- The rows of R97 for a sequencer that is not in IDLE: the one event, the next phase, the counters, and the buffer bit an
INITCH clears; no other part of SRSER changes. That the level of the pad pulse is `Config.draw` of a counter the step advances
is the model's form of a free value (log 4). The states are those with no move to come: a step that begins with the move
`idle` (log 23) is the same one, by `IdleMoveIsOneMicroStep`. -/
def Obligations.SequencerRowsAreThoseOfTheTable : Prop :=
  ∀ s : State, s.Inv → busy s = true → s.inputs = [] →
    ∃ (t : State) (pin : Byte) (v : Level), step s = .next t ∧
      t.trace = s.trace ++ [.wr pin v] ∧ t.ports = (pinWrite pin v s).2.ports ∧
      t.cfg = s.cfg ∧ t.inputs = [] ∧
      match s.seq.phase with
      | .idle => False
      | .latchLo =>
          pin = s.cfg.pinStcp ∧ v = false ∧ t.seq.idx.toNat = 8 * s.cfg.m - 1 + s.cfg.pad.toNat ∧
          t.seq = { s.seq with phase := .clkLo, idx := t.seq.idx } ∧
          t.buf = s.buf ∧ t.rsp = s.rsp ∧ t.draws = s.draws
      | .clkLo =>
          pin = s.cfg.pinShcp ∧ v = false ∧ t.seq = { s.seq with phase := .data } ∧
          t.buf = s.buf ∧ t.rsp = s.rsp ∧ t.draws = s.draws
      | .data =>
          pin = s.cfg.pinDs ∧ t.seq = { s.seq with phase := .clkHi } ∧ t.buf = s.buf ∧ t.rsp = s.rsp ∧
          if s.seq.idx.toNat = 8 * s.cfg.m then v = Config.draw s.draws ∧ t.draws = s.draws + 1
          else s.buf[s.seq.idx.toNat]? = some v ∧ t.draws = s.draws
      | .clkHi =>
          pin = s.cfg.pinShcp ∧ v = true ∧ t.buf = s.buf ∧ t.rsp = s.rsp ∧ t.draws = s.draws ∧
          if s.seq.idx.toNat = 0 then t.seq = { s.seq with phase := .latchHi }
          else t.seq.idx.toNat + 1 = s.seq.idx.toNat ∧ t.seq = { s.seq with phase := .clkLo, idx := t.seq.idx }
      | .latchHi =>
          pin = s.cfg.pinStcp ∧ v = true ∧ t.draws = s.draws ∧
          if s.seq.iact = true ∧ s.seq.ipos.toNat < 7 then
            t.seq.ipos.toNat = s.seq.ipos.toNat + 1 ∧
            t.seq = { s.seq with phase := .latchLo, ipos := t.seq.ipos } ∧ t.rsp = s.rsp ∧
            t.buf = s.buf.set ((s.seq.ireg.toNat - 1) * 8 + t.seq.ipos.toNat) false
          else t.seq = { s.seq with phase := .idle, iact := false } ∧ t.buf = s.buf ∧ t.rsp = some (.ok 0#16)

/-- R95 and R97 agree on SHOUT: from its acceptance the sequencer takes as many micro-steps as ShiftOut has events, and ends
in the state of the big-step rule, with `OK`. That `exec` is the accepting micro-step and the rest the sequencer's is the
model's choice between the two presentations R97 allows (log 11). -/
def Obligations.SequencerRunsShoutAsItsBigStep : Prop :=
  ∀ s : State, s.cfg.wf = true → s.buf.length = s.cfg.nbits → offersOnly .shout s →
    ∃ t, exec .shout { s with inputs := [] } = .next t ∧ step s = .next (settle s t) ∧
      runSteps s.cfg.shiftEvents (settle s t) = .next (bigShout { s with inputs := [] })

/-- R92 and R97 agree on REGWR, with every register index in `1 .. M` and every local position (log 11, as for SHOUT). -/
def Obligations.SequencerRunsRegwrAsItsBigStep : Prop :=
  ∀ (s : State) (r p : Byte) (v : Level), s.cfg.wf = true → s.buf.length = s.cfg.nbits →
    1 ≤ r.toNat → r.toNat ≤ s.cfg.m → p.toNat ≤ 7 → offersOnly (.regwr r p v) s →
    ∃ t, exec (.regwr r p v) { s with inputs := [] } = .next t ∧ step s = .next (settle s t) ∧
      runSteps s.cfg.shiftEvents (settle s t) = .next (bigRegwr r p v { s with inputs := [] })

/-- R93 and R97 agree on INITCH: eight ShiftOuts, one response (log 11, as for SHOUT). -/
def Obligations.SequencerRunsInitchAsItsBigStep : Prop :=
  ∀ (s : State) (r : Byte), s.cfg.wf = true → s.buf.length = s.cfg.nbits →
    1 ≤ r.toNat → r.toNat ≤ s.cfg.m → offersOnly (.initch r) s →
    ∃ t, exec (.initch r) { s with inputs := [] } = .next t ∧ step s = .next (settle s t) ∧
      runSteps (8 * s.cfg.shiftEvents) (settle s t) = .next (bigInitch r { s with inputs := [] })

/-- R96: the events of one `ShiftOut()`, and their number `2 + 3*(8*M + PAD)`. That the level of the pad pulse, a `draw()`, is
`Config.draw` of a counter is the model's form of a free value (log 4). -/
def Obligations.ShiftOutIssuesTheWholeBufferInOrder : Prop :=
  ∀ s : State, s.buf.length = s.cfg.nbits →
    (shiftOut s).trace =
      s.trace ++ [.wr s.cfg.pinStcp false] ++
        ((if s.cfg.pad then [Config.draw s.draws] else []) ++ s.buf.reverse).flatMap (fun d =>
          [.wr s.cfg.pinShcp false, .wr s.cfg.pinDs d, .wr s.cfg.pinShcp true]) ++
        [.wr s.cfg.pinStcp true] ∧
    (shiftOut s).trace.length = s.trace.length + (2 + 3 * (8 * s.cfg.m + s.cfg.pad.toNat))

/-- R100: after `ShiftOut()` the output bit of a valid pin is 1 if it is the latch or the clock pin, else `BUF[0]` if it is the
data pin, else as before (so also when control pins share a pin); no bit changes for an invalid control pin; the direction
registers, the pads' levels and the buffer are as before. -/
def Obligations.ShiftOutLeavesTheControlBits : Prop :=
  ∀ s : State, s.cfg.wf = true → s.buf.length = s.cfg.nbits →
    (∀ pin g k, decodeW pin = some (g, k) →
      outBit (shiftOut s).ports g k =
        if pin = s.cfg.pinStcp ∨ pin = s.cfg.pinShcp then true
        else if pin = s.cfg.pinDs then s.buf.getD 0 false else outBit s.ports g k) ∧
    (∀ g k, (∀ pin, decodeW pin ≠ some (g, k)) → outBit (shiftOut s).ports g k = outBit s.ports g k) ∧
    (shiftOut s).ports =
      { s.ports with outa := (shiftOut s).ports.outa, outb := (shiftOut s).ports.outb } ∧
    (shiftOut s).buf = s.buf ∧ (shiftOut s).cfg = s.cfg

/-- 30 R67, 41 R98, 70 R151: every command offered to an idle SRSER is answered by exactly one response, after exactly its
number of micro-steps and with exactly its number of events; until then SRSER is busy and no response is pending, as the
model holds responses (log 8). -/
def Obligations.EveryCommandIsAnsweredAfterItsMicroSteps : Prop :=
  ∀ (s : State) (i : Instr), s.Inv → offersOnly i s →
    (∃ t, runSteps (microSteps s.cfg i) s = .next t ∧ busy t = false ∧ t.inputs = [] ∧ t.rsp.isSome = true ∧
      t.trace.length = s.trace.length + eventCount s.cfg i) ∧
    ∀ n, 0 < n → n < microSteps s.cfg i → ∃ u, runSteps n s = .next u ∧ busy u = true ∧ u.rsp = none

/-- R92: REGWR, run to completion, sets the one bit at `(r-1)*8 + p` and no other, answers `OK`, and changes no direction bit
and no output bit but those of the control pins. -/
def Obligations.RegwrSetsExactlyOneBufferBit : Prop :=
  ∀ (s : State) (r p : Byte) (v : Level), s.Inv → offersOnly (.regwr r p v) s →
    1 ≤ r.toNat → r.toNat ≤ s.cfg.m → p.toNat ≤ 7 →
    ∃ t, runSteps (1 + s.cfg.shiftEvents) s = .next t ∧ t.rsp = some (.ok 0#16) ∧
      (∀ j, t.buf[j]? = if j = (r.toNat - 1) * 8 + p.toNat then some v else s.buf[j]?) ∧
      t.ports = { s.ports with outa := t.ports.outa, outb := t.ports.outb } ∧
      ∀ pin g k, decodeW pin = some (g, k) → pin ≠ s.cfg.pinStcp → pin ≠ s.cfg.pinShcp → pin ≠ s.cfg.pinDs →
        outBit t.ports g k = outBit s.ports g k

/-- R93: INITCH, run to completion, leaves the eight positions of register `r` low and every other buffer bit as it was. -/
def Obligations.InitchClearsExactlyOneRegister : Prop :=
  ∀ (s : State) (r : Byte), s.Inv → offersOnly (.initch r) s → 1 ≤ r.toNat → r.toNat ≤ s.cfg.m →
    ∃ t, runSteps (1 + 8 * s.cfg.shiftEvents) s = .next t ∧ t.rsp = some (.ok 0#16) ∧
      (∀ j, t.buf[j]? = if (r.toNat - 1) * 8 ≤ j ∧ j < r.toNat * 8 then some false else s.buf[j]?) ∧
      t.ports = { s.ports with outa := t.ports.outa, outb := t.ports.outb }

/-! ### The external register chain (42_external_chain.md; ENVIRONMENT) -/

/-- R112, R113, R114: in every step with `WF_CHAIN` before and after, a rising edge of the clock line shifts the chain by one
with the data line's level into stage 0 and leaves the output stage; a rising edge of the latch line copies the shift stage
to the output stage and leaves the shift stage; where neither line rises the chain does not change. The two lines never rise
in one step. -/
def Obligations.ChainMovesOnlyOnRisingEdges : Prop :=
  ∀ s t : State, s.cfg.wf = true → chainWf s = true → step s = .next t → wfChain s = true → wfChain t = true →
    ¬((lineDrive s.cfg.pinShcp s.ports = some false ∧ lineDrive s.cfg.pinShcp t.ports = some true) ∧
      lineDrive s.cfg.pinStcp s.ports = some false ∧ lineDrive s.cfg.pinStcp t.ports = some true) ∧
    if lineDrive s.cfg.pinShcp s.ports = some false ∧ lineDrive s.cfg.pinShcp t.ports = some true then
      t.chain.sh[0]? = lineDrive s.cfg.pinDs t.ports ∧
        (∀ j, 0 < j → j < s.cfg.stages → t.chain.sh[j]? = s.chain.sh[j - 1]?) ∧
        t.chain.sh.length = s.cfg.stages ∧ t.chain.q = s.chain.q
    else if lineDrive s.cfg.pinStcp s.ports = some false ∧ lineDrive s.cfg.pinStcp t.ports = some true then
      t.chain.q = s.chain.sh ∧ t.chain.sh = s.chain.sh
    else t.chain = s.chain

/-- R116: what a `ShiftOut()` under `WF_CHAIN` leaves in the chain, for both values of `PAD` and every length of the chain. That
the stage of the pad pulse holds `Config.draw` of a counter is the model's form of a free value (log 4). -/
def Obligations.ShiftOutLoadsTheExternalChain : Prop :=
  ∀ s : State, s.cfg.wf = true → s.buf.length = s.cfg.nbits → chainWf s = true → wfChain s = true →
    wfChain (shiftOut s) = true ∧
    (∀ j < s.cfg.stages,
      (shiftOut s).chain.sh[j]? =
        if j < 8 * s.cfg.m then s.buf[j]?
        else if j < 8 * s.cfg.m + s.cfg.pad.toNat then some (Config.draw s.draws)
        else s.chain.sh[j - (8 * s.cfg.m + s.cfg.pad.toNat)]?) ∧
    (shiftOut s).chain.q = (shiftOut s).chain.sh

/-- R30, R116: whenever a command that re-serialises has run to completion under `WF_CHAIN`, the output byte of every external
register equals its image in the buffer, whatever `PAD` is and whatever the chain held before. -/
def Obligations.OutputsShowTheBufferAfterEveryChainCommand : Prop :=
  ∀ (s : State) (i : Instr), s.Inv → wfChain s = true → s.cfg.m ≤ s.cfg.mExt → offersOnly i s →
    1 < microSteps s.cfg i →
    ∃ t, runSteps (microSteps s.cfg i) s = .next t ∧ wfChain t = true ∧
      ∀ r, 1 ≤ r → r ≤ s.cfg.m → imageByte t.chain.q r = imageByte t.buf r

/-- 70 R143: from any state, a reset and then the boot sequence leave `WF_CHAIN` true, SRSER idle, and every output of the
chain's first registers low. R143 leaves the order of the CFGDIRs, and that of the INITCHs, free; this is said of the one order
of `bootCommands`. -/
def Obligations.BootClearsTheOutputs : Prop :=
  ∀ s : State, s.cfg.wf = true → s.cfg.wfPins = true →
    s.inputs = .reset :: (bootCommands s.cfg).map (fun i => .offer (encode i)) →
    ∃ t, runSteps (4 + s.cfg.m * (1 + 8 * s.cfg.shiftEvents)) s = .next t ∧
      wfChain t = true ∧ busy t = false ∧ t.inputs = [] ∧
      ∀ r, 1 ≤ r → r ≤ s.cfg.m → r ≤ s.cfg.mExt → imageByte t.chain.q r = 0

/-! ### The whole machine -/

/-- The invariant holds right after power-on, for every configuration in the ranges of 00 R5, and so at `State.reset`, whose
instance is the model's choice (log 2). -/
def Obligations.InvariantHoldsAfterReset : Prop :=
  (∀ c : Config, c.wf = true → (State.powerOn c).Inv) ∧ State.reset.Inv

/-- From every state that meets the invariant a step answers a next state, which meets it too: the buffer keeps its `8*M` bits
(10 R29), the unreachable port bits stay 0 (20 R43), the sequencer stays in its ranges (10 R31), no response is pending
while a command is in progress (30 R67; the model's way of holding it, log 8), the external chain keeps its stages (42 R110),
and SRSER never halts (70 R152). -/
def Obligations.EveryStepCompletesAndKeepsTheInvariant : Prop :=
  ∀ s : State, s.Inv → ∃ t, step s = .next t ∧ t.Inv

/-- 60 R129: no step changes the configuration, which the model holds in a field of State (log 1). -/
def Obligations.NoStepChangesTheConfiguration : Prop :=
  ∀ s t : State, step s = .next t → t.cfg = s.cfg

/-- 10 R29: the buffer is written only by the acceptance of a REGWR or an INITCH, by the sequencer inside an INITCH, and by a
reset. -/
def Obligations.OnlyRegwrInitchAndResetChangeTheBuffer : Prop :=
  ∀ s t : State, step s = .next t → t.buf ≠ s.buf →
    (∃ rest, s.inputs = .reset :: rest) ∨
    (busy s = false ∧ ∃ w rest, s.inputs = .offer w :: rest ∧
      ((∃ r p v, decode w = .ok (.regwr r p v)) ∨ ∃ r, decode w = .ok (.initch r))) ∨
    (s.seq.phase = .latchHi ∧ s.seq.iact = true)

/-- 70 R143, 91 N22: a direction bit changes only by a CFGDIR of a valid write pin, and by a reset: no chain command makes a
control pin an output. -/
def Obligations.OnlyCfgdirAndResetChangeADirection : Prop :=
  ∀ s t : State, step s = .next t → t.ports.dira ≠ s.ports.dira ∨ t.ports.dirb ≠ s.ports.dirb →
    (∃ rest, s.inputs = .reset :: rest) ∨
    (busy s = false ∧ ∃ w rest pin v, s.inputs = .offer w :: rest ∧ decode w = .ok (.cfgdir pin v) ∧
      validWritePin pin = true)

/-- 20 R51: a step never takes an event back, reorders the trace, or issues more than one event. The trace is a field of State
by the model's choice (log 9). -/
def Obligations.EveryStepAppendsAtMostOneEvent : Prop :=
  ∀ s t : State, step s = .next t → t.trace = s.trace ∨ ∃ e, t.trace = s.trace ++ [e]

/-- 60 R120, R125: the outcome of a word accepted by an idle SRSER: first the illegal word, then the index check, then the
pin; otherwise `OK`, at once for a one-step command, and at the end for REGWR, INITCH and SHOUT. That their acceptance takes the
response of the command before off the port is the model's choice (log 8). -/
def Obligations.OutcomesFollowThePriority : Prop :=
  ∀ (s : State) (w : Word) (rest : List Input), busy s = false → s.inputs = .offer w :: rest →
    ∃ t, step s = .next t ∧
      match decode w with
      | .error _ => t.rsp = some .illegalCommand ∧ busy t = false
      | .ok (.cfgdir pin _) =>
          t.rsp = some (if validWritePin pin then .ok 0#16 else .pinIgnored 0#16) ∧ busy t = false
      | .ok (.pinwr pin _) =>
          t.rsp = some (if validWritePin pin then .ok 0#16 else .pinIgnored 0#16) ∧ busy t = false
      | .ok (.pinrd pin) =>
          busy t = false ∧ if validReadPin pin then ∃ q, t.rsp = some (.ok q) else t.rsp = some (.pinIgnored 0#16)
      | .ok (.abspos r p) =>
          busy t = false ∧ if indexCheck s.cfg r p then ∃ q, t.rsp = some (.ok q) else t.rsp = some .indexRange
      | .ok (.regwr r p _) =>
          if indexCheck s.cfg r p then t.rsp = none ∧ busy t = true
          else t.rsp = some .indexRange ∧ busy t = false
      | .ok (.initch r) =>
          if indexCheck s.cfg r 0#8 then t.rsp = none ∧ busy t = true
          else t.rsp = some .indexRange ∧ busy t = false
      | .ok .shout => t.rsp = none ∧ busy t = true

/-- 42_external_chain.md, first paragraph: SRSER's own state and trace do not rest on the external chain. From two states that
differ only in the chain's contents, a step leads to two states that differ only there. -/
def Obligations.SrserDoesNotSeeTheExternalChain : Prop :=
  ∀ (s t : State) (c : ExtChain), step s = .next t →
    ∃ c' : ExtChain, step { s with chain := c } = .next { t with chain := c' }

/-- The move `idle`, by which the host offers nothing for one micro-step, is the model's own (log 23): such a step is the one
SRSER takes when no move is to come. -/
def Obligations.IdleMoveIsOneMicroStep : Prop :=
  ∀ (s t : State) (rest : List Input), s.inputs = .idle :: rest → step { s with inputs := [] } = .next t →
    step s = .next { t with inputs := rest }
end

