-- ==== Sys2Proof/Laws/State.lean ====
section
/-! SUPPORT. One lemma per field per update of State, each true by rfl, so that no proof unfolds a record update; and the
fields that the port primitives leave alone. -/

namespace Sys2Proof.Machine

/-! ### emit -/

@[simp] theorem emit_cfg (e : Event) (s : State) : (emit e s).cfg = s.cfg := by rfl
@[simp] theorem emit_ports (e : Event) (s : State) : (emit e s).ports = s.ports := by rfl
@[simp] theorem emit_buf (e : Event) (s : State) : (emit e s).buf = s.buf := by rfl
@[simp] theorem emit_seq (e : Event) (s : State) : (emit e s).seq = s.seq := by rfl
@[simp] theorem emit_rsp (e : Event) (s : State) : (emit e s).rsp = s.rsp := by rfl
@[simp] theorem emit_inputs (e : Event) (s : State) : (emit e s).inputs = s.inputs := by rfl
@[simp] theorem emit_draws (e : Event) (s : State) : (emit e s).draws = s.draws := by rfl
@[simp] theorem emit_trace (e : Event) (s : State) : (emit e s).trace = s.trace ++ [e] := by rfl
@[simp] theorem emit_chain (e : Event) (s : State) : (emit e s).chain = s.chain := by rfl

/-! ### bufWrite -/

@[simp] theorem bufWrite_cfg (i : Nat) (v : Level) (s : State) : (bufWrite i v s).cfg = s.cfg := by rfl
@[simp] theorem bufWrite_ports (i : Nat) (v : Level) (s : State) : (bufWrite i v s).ports = s.ports := by rfl
@[simp] theorem bufWrite_buf (i : Nat) (v : Level) (s : State) : (bufWrite i v s).buf = s.buf.set i v := by rfl
@[simp] theorem bufWrite_seq (i : Nat) (v : Level) (s : State) : (bufWrite i v s).seq = s.seq := by rfl
@[simp] theorem bufWrite_rsp (i : Nat) (v : Level) (s : State) : (bufWrite i v s).rsp = s.rsp := by rfl
@[simp] theorem bufWrite_inputs (i : Nat) (v : Level) (s : State) : (bufWrite i v s).inputs = s.inputs := by rfl
@[simp] theorem bufWrite_draws (i : Nat) (v : Level) (s : State) : (bufWrite i v s).draws = s.draws := by rfl
@[simp] theorem bufWrite_trace (i : Nat) (v : Level) (s : State) : (bufWrite i v s).trace = s.trace := by rfl
@[simp] theorem bufWrite_chain (i : Nat) (v : Level) (s : State) : (bufWrite i v s).chain = s.chain := by rfl

/-! ### respond -/

@[simp] theorem respond_cfg (q : Response) (s : State) : (respond q s).cfg = s.cfg := by rfl
@[simp] theorem respond_ports (q : Response) (s : State) : (respond q s).ports = s.ports := by rfl
@[simp] theorem respond_buf (q : Response) (s : State) : (respond q s).buf = s.buf := by rfl
@[simp] theorem respond_seq (q : Response) (s : State) : (respond q s).seq = s.seq := by rfl
@[simp] theorem respond_rsp (q : Response) (s : State) : (respond q s).rsp = some q := by rfl
@[simp] theorem respond_inputs (q : Response) (s : State) : (respond q s).inputs = s.inputs := by rfl
@[simp] theorem respond_draws (q : Response) (s : State) : (respond q s).draws = s.draws := by rfl
@[simp] theorem respond_trace (q : Response) (s : State) : (respond q s).trace = s.trace := by rfl
@[simp] theorem respond_chain (q : Response) (s : State) : (respond q s).chain = s.chain := by rfl

/-! ### drawLevel_state -/

@[simp] theorem drawLevel_state_cfg (s : State) : ((drawLevel s).2).cfg = s.cfg := by rfl
@[simp] theorem drawLevel_state_ports (s : State) : ((drawLevel s).2).ports = s.ports := by rfl
@[simp] theorem drawLevel_state_buf (s : State) : ((drawLevel s).2).buf = s.buf := by rfl
@[simp] theorem drawLevel_state_seq (s : State) : ((drawLevel s).2).seq = s.seq := by rfl
@[simp] theorem drawLevel_state_rsp (s : State) : ((drawLevel s).2).rsp = s.rsp := by rfl
@[simp] theorem drawLevel_state_inputs (s : State) : ((drawLevel s).2).inputs = s.inputs := by rfl
@[simp] theorem drawLevel_state_draws (s : State) : ((drawLevel s).2).draws = s.draws + 1 := by rfl
@[simp] theorem drawLevel_state_trace (s : State) : ((drawLevel s).2).trace = s.trace := by rfl
@[simp] theorem drawLevel_state_chain (s : State) : ((drawLevel s).2).chain = s.chain := by rfl

/-! ### resetState -/

@[simp] theorem resetState_cfg (s : State) : (resetState s).cfg = s.cfg := by rfl
@[simp] theorem resetState_ports (s : State) : (resetState s).ports = { s.ports with dira := 0x00#8, outa := 0x00#8, dirb := 0x00#8, outb := 0x00#8 } := by rfl
@[simp] theorem resetState_buf (s : State) : (resetState s).buf = List.replicate s.cfg.nbits false := by rfl
@[simp] theorem resetState_seq (s : State) : (resetState s).seq = Seq.reset := by rfl
@[simp] theorem resetState_rsp (s : State) : (resetState s).rsp = none := by rfl
@[simp] theorem resetState_inputs (s : State) : (resetState s).inputs = s.inputs := by rfl
@[simp] theorem resetState_draws (s : State) : (resetState s).draws = s.draws := by rfl
@[simp] theorem resetState_trace (s : State) : (resetState s).trace = s.trace := by rfl
@[simp] theorem resetState_chain (s : State) : (resetState s).chain = s.chain := by rfl

/-! ### envPads -/

@[simp] theorem envPads_cfg (a b : Byte) (s : State) : (envPads a b s).cfg = s.cfg := by rfl
@[simp] theorem envPads_ports (a b : Byte) (s : State) : (envPads a b s).ports = { s.ports with padA := a, padB := b } := by rfl
@[simp] theorem envPads_buf (a b : Byte) (s : State) : (envPads a b s).buf = s.buf := by rfl
@[simp] theorem envPads_seq (a b : Byte) (s : State) : (envPads a b s).seq = s.seq := by rfl
@[simp] theorem envPads_rsp (a b : Byte) (s : State) : (envPads a b s).rsp = s.rsp := by rfl
@[simp] theorem envPads_inputs (a b : Byte) (s : State) : (envPads a b s).inputs = s.inputs := by rfl
@[simp] theorem envPads_draws (a b : Byte) (s : State) : (envPads a b s).draws = s.draws := by rfl
@[simp] theorem envPads_trace (a b : Byte) (s : State) : (envPads a b s).trace = s.trace := by rfl
@[simp] theorem envPads_chain (a b : Byte) (s : State) : (envPads a b s).chain = s.chain := by rfl

/-! ### toPhase -/

@[simp] theorem toPhase_cfg (ph : Phase) (s : State) : (toPhase ph s).cfg = s.cfg := by rfl
@[simp] theorem toPhase_ports (ph : Phase) (s : State) : (toPhase ph s).ports = s.ports := by rfl
@[simp] theorem toPhase_buf (ph : Phase) (s : State) : (toPhase ph s).buf = s.buf := by rfl
@[simp] theorem toPhase_seq (ph : Phase) (s : State) : (toPhase ph s).seq = { s.seq with phase := ph } := by rfl
@[simp] theorem toPhase_rsp (ph : Phase) (s : State) : (toPhase ph s).rsp = s.rsp := by rfl
@[simp] theorem toPhase_inputs (ph : Phase) (s : State) : (toPhase ph s).inputs = s.inputs := by rfl
@[simp] theorem toPhase_draws (ph : Phase) (s : State) : (toPhase ph s).draws = s.draws := by rfl
@[simp] theorem toPhase_trace (ph : Phase) (s : State) : (toPhase ph s).trace = s.trace := by rfl
@[simp] theorem toPhase_chain (ph : Phase) (s : State) : (toPhase ph s).chain = s.chain := by rfl

/-! ### startShift -/

@[simp] theorem startShift_cfg (iact : Bool) (s : State) : (startShift iact s).cfg = s.cfg := by rfl
@[simp] theorem startShift_ports (iact : Bool) (s : State) : (startShift iact s).ports = s.ports := by rfl
@[simp] theorem startShift_buf (iact : Bool) (s : State) : (startShift iact s).buf = s.buf := by rfl
@[simp] theorem startShift_seq (iact : Bool) (s : State) : (startShift iact s).seq = { s.seq with phase := .latchLo, iact := iact } := by rfl
@[simp] theorem startShift_rsp (iact : Bool) (s : State) : (startShift iact s).rsp = none := by rfl
@[simp] theorem startShift_inputs (iact : Bool) (s : State) : (startShift iact s).inputs = s.inputs := by rfl
@[simp] theorem startShift_draws (iact : Bool) (s : State) : (startShift iact s).draws = s.draws := by rfl
@[simp] theorem startShift_trace (iact : Bool) (s : State) : (startShift iact s).trace = s.trace := by rfl
@[simp] theorem startShift_chain (iact : Bool) (s : State) : (startShift iact s).chain = s.chain := by rfl

/-! ### atRest -/

@[simp] theorem atRest_cfg (s : State) : (atRest s).cfg = s.cfg := by rfl
@[simp] theorem atRest_ports (s : State) : (atRest s).ports = s.ports := by rfl
@[simp] theorem atRest_buf (s : State) : (atRest s).buf = s.buf := by rfl
@[simp] theorem atRest_seq (s : State) : (atRest s).seq = { s.seq with phase := .idle, idx := 0#11, iact := false } := by rfl
@[simp] theorem atRest_rsp (s : State) : (atRest s).rsp = s.rsp := by rfl
@[simp] theorem atRest_inputs (s : State) : (atRest s).inputs = s.inputs := by rfl
@[simp] theorem atRest_draws (s : State) : (atRest s).draws = s.draws := by rfl
@[simp] theorem atRest_trace (s : State) : (atRest s).trace = s.trace := by rfl
@[simp] theorem atRest_chain (s : State) : (atRest s).chain = s.chain := by rfl

/-! ### settle -/

@[simp] theorem settle_cfg (b s : State) : (settle b s).cfg = s.cfg := by rfl
@[simp] theorem settle_ports (b s : State) : (settle b s).ports = s.ports := by rfl
@[simp] theorem settle_buf (b s : State) : (settle b s).buf = s.buf := by rfl
@[simp] theorem settle_seq (b s : State) : (settle b s).seq = s.seq := by rfl
@[simp] theorem settle_rsp (b s : State) : (settle b s).rsp = s.rsp := by rfl
@[simp] theorem settle_inputs (b s : State) : (settle b s).inputs = s.inputs := by rfl
@[simp] theorem settle_draws (b s : State) : (settle b s).draws = s.draws := by rfl
@[simp] theorem settle_trace (b s : State) : (settle b s).trace = s.trace := by rfl
@[simp] theorem settle_chain (b s : State) : (settle b s).chain = chainAfter b s := by rfl

/-! ### pinDir: only `ports` and `trace` change -/

@[simp] theorem pinDir_cfg (pin : Byte) (v : Level) (s : State) :
    (pinDir pin v s).2.cfg = s.cfg := by
  unfold pinDir; split <;> rfl
@[simp] theorem pinDir_buf (pin : Byte) (v : Level) (s : State) :
    (pinDir pin v s).2.buf = s.buf := by
  unfold pinDir; split <;> rfl
@[simp] theorem pinDir_seq (pin : Byte) (v : Level) (s : State) :
    (pinDir pin v s).2.seq = s.seq := by
  unfold pinDir; split <;> rfl
@[simp] theorem pinDir_rsp (pin : Byte) (v : Level) (s : State) :
    (pinDir pin v s).2.rsp = s.rsp := by
  unfold pinDir; split <;> rfl
@[simp] theorem pinDir_inputs (pin : Byte) (v : Level) (s : State) :
    (pinDir pin v s).2.inputs = s.inputs := by
  unfold pinDir; split <;> rfl
@[simp] theorem pinDir_draws (pin : Byte) (v : Level) (s : State) :
    (pinDir pin v s).2.draws = s.draws := by
  unfold pinDir; split <;> rfl
@[simp] theorem pinDir_trace (pin : Byte) (v : Level) (s : State) :
    (pinDir pin v s).2.trace = s.trace ++ [.dir pin v] := by
  unfold pinDir; split <;> rfl
@[simp] theorem pinDir_chain (pin : Byte) (v : Level) (s : State) :
    (pinDir pin v s).2.chain = s.chain := by
  unfold pinDir; split <;> rfl

/-! ### pinWrite: only `ports` and `trace` change -/

@[simp] theorem pinWrite_cfg (pin : Byte) (v : Level) (s : State) :
    (pinWrite pin v s).2.cfg = s.cfg := by
  unfold pinWrite; split <;> rfl
@[simp] theorem pinWrite_buf (pin : Byte) (v : Level) (s : State) :
    (pinWrite pin v s).2.buf = s.buf := by
  unfold pinWrite; split <;> rfl
@[simp] theorem pinWrite_seq (pin : Byte) (v : Level) (s : State) :
    (pinWrite pin v s).2.seq = s.seq := by
  unfold pinWrite; split <;> rfl
@[simp] theorem pinWrite_rsp (pin : Byte) (v : Level) (s : State) :
    (pinWrite pin v s).2.rsp = s.rsp := by
  unfold pinWrite; split <;> rfl
@[simp] theorem pinWrite_inputs (pin : Byte) (v : Level) (s : State) :
    (pinWrite pin v s).2.inputs = s.inputs := by
  unfold pinWrite; split <;> rfl
@[simp] theorem pinWrite_draws (pin : Byte) (v : Level) (s : State) :
    (pinWrite pin v s).2.draws = s.draws := by
  unfold pinWrite; split <;> rfl
@[simp] theorem pinWrite_trace (pin : Byte) (v : Level) (s : State) :
    (pinWrite pin v s).2.trace = s.trace ++ [.wr pin v] := by
  unfold pinWrite; split <;> rfl
@[simp] theorem pinWrite_chain (pin : Byte) (v : Level) (s : State) :
    (pinWrite pin v s).2.chain = s.chain := by
  unfold pinWrite; split <;> rfl

end Sys2Proof.Machine
end

