-- ==== Sys2Proof/Laws/Ports.lean ====
section
/-! SUPPORT. What the pin decodes answer, and everything the port primitives can do to the port registers and to what shows
on the control lines. -/

namespace Sys2Proof.Machine

/-! ### Pin decodes -/

/-- The pin and the port bit determine each other (20_memory.md R41, R42). -/
theorem decodePin_eq_some {bmax : Nat} {pin : Byte} {g : Group} {k : Nat} :
    decodePin bmax pin = some (g, k) ↔
      (g = .a ∧ pin.toNat = k ∧ 2 ≤ k ∧ k ≤ 7) ∨ (g = .b ∧ pin.toNat = k + 8 ∧ k + 8 ≤ bmax) := by
  unfold decodePin groupAMin groupAMax groupBBase
  by_cases ha : 2 ≤ pin.toNat ∧ pin.toNat ≤ 7
  · rw [if_pos ha, Option.some.injEq, Prod.mk.injEq]
    constructor
    · rintro ⟨rfl, rfl⟩; exact .inl ⟨rfl, rfl, ha⟩
    · rintro (⟨rfl, rfl, -⟩ | ⟨rfl, h, -⟩)
      · exact ⟨rfl, rfl⟩
      · omega
  · rw [if_neg ha]
    by_cases hb : 8 ≤ pin.toNat ∧ pin.toNat ≤ bmax
    · rw [if_pos hb, Option.some.injEq, Prod.mk.injEq]
      constructor
      · rintro ⟨rfl, rfl⟩; exact .inr ⟨rfl, by omega, by omega⟩
      · rintro (⟨rfl, rfl, h⟩ | ⟨rfl, h, -⟩)
        · omega
        · exact ⟨rfl, by omega⟩
    · rw [if_neg hb]
      simp only [reduceCtorEq, false_iff]
      rintro (⟨-, h⟩ | ⟨-, h⟩) <;> omega

theorem decodeW_eq_some {pin : Byte} {g : Group} {k : Nat} :
    decodeW pin = some (g, k) ↔
      (g = .a ∧ pin.toNat = k ∧ 2 ≤ k ∧ k ≤ 7) ∨ (g = .b ∧ pin.toNat = k + 8 ∧ k ≤ 4) := by
  have bound : groupBWriteMax = 12 := rfl
  rw [decodeW, decodePin_eq_some]
  constructor
  · rintro (h | ⟨h₁, h₂, h₃⟩)
    · exact .inl h
    · exact .inr ⟨h₁, h₂, by omega⟩
  · rintro (h | ⟨h₁, h₂, h₃⟩)
    · exact .inl h
    · exact .inr ⟨h₁, h₂, by omega⟩

theorem decodeR_eq_some {pin : Byte} {g : Group} {k : Nat} :
    decodeR pin = some (g, k) ↔
      (g = .a ∧ pin.toNat = k ∧ 2 ≤ k ∧ k ≤ 7) ∨ (g = .b ∧ pin.toNat = k + 8 ∧ k ≤ 5) := by
  have bound : groupBReadMax = 13 := rfl
  rw [decodeR, decodePin_eq_some]
  constructor
  · rintro (h | ⟨h₁, h₂, h₃⟩)
    · exact .inl h
    · exact .inr ⟨h₁, h₂, by omega⟩
  · rintro (h | ⟨h₁, h₂, h₃⟩)
    · exact .inl h
    · exact .inr ⟨h₁, h₂, by omega⟩

/-- Two pins that reach the same port bit are one pin. -/
theorem decodeW_inj {p q : Byte} {x : Group × Nat} (hp : decodeW p = some x) (hq : decodeW q = some x) : p = q := by
  obtain ⟨g, k⟩ := x
  rw [decodeW_eq_some] at hp hq
  apply BitVec.eq_of_toNat_eq
  rcases hp with ⟨rfl, hp, -⟩ | ⟨rfl, hp, -⟩ <;> rcases hq with ⟨hg, hq, -⟩ | ⟨hg, hq, -⟩ <;>
    first | omega | cases hg

theorem decodeW_lt {p : Byte} {g : Group} {k : Nat} (h : decodeW p = some (g, k)) : k < 8 := by
  rw [decodeW_eq_some] at h; omega

theorem validWritePin_iff (pin : Byte) : validWritePin pin = true ↔ ∃ x, decodeW pin = some x := by
  simp only [validWritePin, groupAMin, groupAMax, groupBBase, groupBWriteMax, Bool.or_eq_true, Bool.and_eq_true,
    decide_eq_true_eq]
  constructor
  · rintro (h | h)
    · exact ⟨(.a, pin.toNat), decodeW_eq_some.mpr (.inl ⟨rfl, rfl, h⟩)⟩
    · exact ⟨(.b, pin.toNat - 8), decodeW_eq_some.mpr (.inr ⟨rfl, by omega, by omega⟩)⟩
  · rintro ⟨⟨g, k⟩, h⟩
    rw [decodeW_eq_some] at h
    omega

theorem validReadPin_iff (pin : Byte) : validReadPin pin = true ↔ ∃ x, decodeR pin = some x := by
  simp only [validReadPin, groupAMin, groupAMax, groupBBase, groupBReadMax, Bool.or_eq_true, Bool.and_eq_true,
    decide_eq_true_eq]
  constructor
  · rintro (h | h)
    · exact ⟨(.a, pin.toNat), decodeR_eq_some.mpr (.inl ⟨rfl, rfl, h⟩)⟩
    · exact ⟨(.b, pin.toNat - 8), decodeR_eq_some.mpr (.inr ⟨rfl, by omega, by omega⟩)⟩
  · rintro ⟨⟨g, k⟩, h⟩
    rw [decodeR_eq_some] at h
    omega

/-! ### One bit of one register (20_memory.md R47) -/

theorem setBit_getLsbD (w : Byte) (k : Nat) (v : Level) (j : Nat) (hk : k < 8) :
    (setBit w k v).getLsbD j = if j = k then v else w.getLsbD j := by
  have one : (1#8 <<< k).getLsbD j = decide (j = k) := by
    rw [BitVec.getLsbD_shiftLeft]
    by_cases h : j = k
    · subst h; simp [hk]
    · rw [decide_eq_false h]
      by_cases h2 : j < k
      · simp [h2]
      · have : j - k ≠ 0 := by omega
        simp [BitVec.getLsbD_one, this]
  unfold setBit
  cases v
  · rw [if_neg (by simp), BitVec.getLsbD_and, BitVec.getLsbD_not, one]
    by_cases h : j = k
    · subst h; simp
    · by_cases h8 : j < 8
      · simp [h, h8]
      · simp [h, h8, BitVec.getLsbD_of_ge w j (by omega)]
  · rw [if_pos rfl, BitVec.getLsbD_or, one]
    by_cases h : j = k <;> simp [h]

theorem setBit_same (w : Byte) (k : Nat) (v : Level) (hk : k < 8) : setBit (setBit w k v) k v = setBit w k v := by
  apply BitVec.eq_of_getLsbD_eq
  intro j _
  simp only [setBit_getLsbD _ _ _ _ hk]
  split_ifs <;> rfl

theorem outBit_memWrite (p : Ports) (g g' : Group) (k k' : Nat) (v : Level) (hk : k < 8) :
    outBit (memWrite g.outReg k v p) g' k' = if g' = g ∧ k' = k then v else outBit p g' k' := by
  cases g <;> cases g' <;> simp [memWrite, Group.outReg, outBit, setBit_getLsbD _ _ _ _ hk]

theorem dirBit_memWrite_out (p : Ports) (g g' : Group) (k k' : Nat) (v : Level) :
    dirBit (memWrite g.outReg k v p) g' k' = dirBit p g' k' := by
  cases g <;> cases g' <;> rfl

theorem dirBit_memWrite (p : Ports) (g g' : Group) (k k' : Nat) (v : Level) (hk : k < 8) :
    dirBit (memWrite g.dirReg k v p) g' k' = if g' = g ∧ k' = k then v else dirBit p g' k' := by
  cases g <;> cases g' <;> simp [memWrite, Group.dirReg, dirBit, setBit_getLsbD _ _ _ _ hk]

theorem outBit_memWrite_dir (p : Ports) (g g' : Group) (k k' : Nat) (v : Level) :
    outBit (memWrite g.dirReg k v p) g' k' = outBit p g' k' := by
  cases g <;> cases g' <;> rfl

/-! ### The port primitives on the registers -/

theorem pinWrite_ports (pin : Byte) (v : Level) (s : State) :
    (pinWrite pin v s).2.ports =
      match decodeW pin with
      | some (g, k) => memWrite g.outReg k v s.ports
      | none => s.ports := by
  unfold pinWrite; rcases decodeW pin with _ | ⟨g, k⟩ <;> rfl

theorem pinDir_ports (pin : Byte) (v : Level) (s : State) :
    (pinDir pin v s).2.ports =
      match decodeW pin with
      | some (g, k) => memWrite g.dirReg k v s.ports
      | none => s.ports := by
  unfold pinDir; rcases decodeW pin with _ | ⟨g, k⟩ <;> rfl

/-- `PinWrite` writes the output bit of its own pin (20_memory.md R45). -/
theorem pinWrite_outBit (pin : Byte) (v : Level) (s : State) (g : Group) (k : Nat) :
    outBit (pinWrite pin v s).2.ports g k = if decodeW pin = some (g, k) then v else outBit s.ports g k := by
  rw [pinWrite_ports]
  rcases h : decodeW pin with _ | ⟨g', k'⟩
  · simp
  · simp only [outBit_memWrite _ _ _ _ _ _ (decodeW_lt h), Option.some.injEq, Prod.mk.injEq]
    congr 1; simp only [eq_iff_iff]; constructor <;> rintro ⟨rfl, rfl⟩ <;> exact ⟨rfl, rfl⟩

@[simp] theorem pinWrite_dirBit (pin : Byte) (v : Level) (s : State) (g : Group) (k : Nat) :
    dirBit (pinWrite pin v s).2.ports g k = dirBit s.ports g k := by
  rw [pinWrite_ports]; split <;> [exact dirBit_memWrite_out ..; rfl]

/-- `PinDir` writes the direction bit of its own pin (20_memory.md R44). -/
theorem pinDir_dirBit (pin : Byte) (v : Level) (s : State) (g : Group) (k : Nat) :
    dirBit (pinDir pin v s).2.ports g k = if decodeW pin = some (g, k) then v else dirBit s.ports g k := by
  rw [pinDir_ports]
  rcases h : decodeW pin with _ | ⟨g', k'⟩
  · simp
  · simp only [dirBit_memWrite _ _ _ _ _ _ (decodeW_lt h), Option.some.injEq, Prod.mk.injEq]
    congr 1; simp only [eq_iff_iff]; constructor <;> rintro ⟨rfl, rfl⟩ <;> exact ⟨rfl, rfl⟩

@[simp] theorem pinDir_outBit (pin : Byte) (v : Level) (s : State) (g : Group) (k : Nat) :
    outBit (pinDir pin v s).2.ports g k = outBit s.ports g k := by
  rw [pinDir_ports]; split <;> [exact outBit_memWrite_dir ..; rfl]

/-- `PinWrite` leaves the direction registers and the pads' levels alone. -/
theorem pinWrite_ports_frame (pin : Byte) (v : Level) (s : State) :
    (pinWrite pin v s).2.ports =
      { s.ports with outa := (pinWrite pin v s).2.ports.outa, outb := (pinWrite pin v s).2.ports.outb } := by
  rw [pinWrite_ports]; rcases decodeW pin with _ | ⟨g, k⟩ <;> [rfl; (cases g <;> rfl)]

/-- `PinDir` leaves the output registers and the pads' levels alone. -/
theorem pinDir_ports_frame (pin : Byte) (v : Level) (s : State) :
    (pinDir pin v s).2.ports =
      { s.ports with dira := (pinDir pin v s).2.ports.dira, dirb := (pinDir pin v s).2.ports.dirb } := by
  rw [pinDir_ports]; rcases decodeW pin with _ | ⟨g, k⟩ <;> [rfl; (cases g <;> rfl)]

/-- The whole effect of `PinWrite`: ports and trace. -/
theorem pinWrite_eq (pin : Byte) (v : Level) (s : State) :
    (pinWrite pin v s).2 =
      { s with ports := (pinWrite pin v s).2.ports, trace := s.trace ++ [.wr pin v] } := by
  unfold pinWrite; split <;> rfl

/-- The whole effect of `PinDir`: ports and trace. -/
theorem pinDir_eq (pin : Byte) (v : Level) (s : State) :
    (pinDir pin v s).2 =
      { s with ports := (pinDir pin v s).2.ports, trace := s.trace ++ [.dir pin v] } := by
  unfold pinDir; split <;> rfl

/-! ### The control lines (42_external_chain.md R111) -/

/-- A write of a pin shows on that pin's own line, where it is driven, and on no other. -/
theorem lineDrive_pinWrite (p pin : Byte) (v : Level) (s : State) :
    lineDrive p (pinWrite pin v s).2.ports =
      if p = pin then (lineDrive p s.ports).map fun _ => v else lineDrive p s.ports := by
  unfold lineDrive
  rcases h : decodeW p with _ | ⟨g, k⟩
  · simp
  · simp only [padDrive, pinWrite_dirBit, pinWrite_outBit]
    by_cases hp : p = pin
    · subst hp; simp only [h, if_true]; split_ifs <;> rfl
    · have : decodeW pin ≠ some (g, k) := fun h' => hp (decodeW_inj h h')
      simp [this, hp]

/-- A draw shows on no line. -/
theorem lineDrive_isSome_pinWrite (p pin : Byte) (v : Level) (s : State) :
    (lineDrive p (pinWrite pin v s).2.ports).isSome = (lineDrive p s.ports).isSome := by
  rw [lineDrive_pinWrite]; split_ifs <;> simp

/-- `WF_CHAIN` reads the configuration and the direction bits only: no write of a level changes it. -/
@[simp] theorem wfChain_pinWrite (pin : Byte) (v : Level) (s : State) :
    wfChain (pinWrite pin v s).2 = wfChain s := by
  simp only [wfChain, pinWrite_cfg, lineDrive_isSome_pinWrite]

/-- `WF_CHAIN` and the reaction of the chain depend on the configuration, the ports and the chain alone. -/
theorem wfChain_congr {s t : State} (hc : t.cfg = s.cfg) (hp : t.ports = s.ports) : wfChain t = wfChain s := by
  simp only [wfChain, hc, hp]

theorem chainAfter_congr {b s b' s' : State} (h₁ : b'.cfg = b.cfg) (h₂ : b'.ports = b.ports) (h₃ : s'.cfg = s.cfg)
    (h₄ : s'.ports = s.ports) (h₅ : s'.chain = s.chain) : chainAfter b' s' = chainAfter b s := by
  simp only [chainAfter, wfChain_congr h₁ h₂, wfChain_congr h₃ h₄, h₁, h₂, h₃, h₄, h₅]

theorem rising_self (x : Option Level) : rising x x = false := by
  rcases x with _ | (_ | _) <;> rfl

/-- Where a move leaves the configuration and the ports alone and `WF_CHAIN` holds, the chain does not move. -/
theorem chainAfter_same {b s : State} (h₁ : s.cfg = b.cfg) (h₂ : s.ports = b.ports) (hw : wfChain b = true) :
    chainAfter b s = s.chain := by
  simp only [chainAfter, wfChain_congr h₁ h₂, hw, h₁, h₂, rising_self, ExtChain.react, Bool.and_self, if_true,
    Bool.false_eq_true, if_false]

end Sys2Proof.Machine
end

