-- ==== Sys2Proof/Laws/Memory.lean ====
section
/-! SUPPORT. Every operation on SRSER's storage keeps its canonical form (Memory.wf), and the state after reset has it. -/

namespace Sys2Proof.Machine

theorem Memory.wf_iff (s : State) :
    Memory.wf s = true ↔ s.buf.length = s.cfg.nbits ∧ s.ports.wf = true := by
  simp only [Memory.wf, Bool.and_eq_true, decide_eq_true_iff]

theorem Ports.wf_iff (p : Ports) :
    p.wf = true ↔ p.dira &&& 0x03#8 = 0#8 ∧ p.outa &&& 0x03#8 = 0#8 ∧ p.dirb &&& 0xE0#8 = 0#8 ∧ p.outb &&& 0xE0#8 = 0#8 := by
  simp only [Ports.wf, Bool.and_eq_true, decide_eq_true_iff, and_assoc]

/-- A bit outside a mask can be set without leaving the mask's zeros. -/
theorem setBit_and_zero {w m : Byte} {k : Nat} (v : Level) (hk : k < 8) (hm : m.getLsbD k = false)
    (h : w &&& m = 0#8) : setBit w k v &&& m = 0#8 := by
  apply BitVec.eq_of_getLsbD_eq
  intro j hj
  have hw := congrArg (·.getLsbD j) h
  simp only [BitVec.getLsbD_and] at hw ⊢
  rw [setBit_getLsbD _ _ _ _ hk]
  split_ifs with e
  · subst e; simp [hm]
  · exact hw

/-- The bits a pin of group A reaches lie outside the mask of the unreachable ones, and so do those of group B. -/
theorem decodeW_reaches {pin : Byte} {g : Group} {k : Nat} (h : decodeW pin = some (g, k)) :
    (match g with
      | .a => 0x03#8
      | .b => 0xE0#8).getLsbD k = false := by
  have hk : k ≤ 7 := by have := decodeW_lt h; omega
  rw [decodeW_eq_some] at h
  rcases h with ⟨rfl, -, h₁, h₂⟩ | ⟨rfl, -, h₁⟩
  · interval_cases k <;> rfl
  · interval_cases k <;> rfl

theorem Ports.wf_pinWrite (pin : Byte) (v : Level) {s : State} (h : s.ports.wf = true) :
    (pinWrite pin v s).2.ports.wf = true := by
  rw [pinWrite_ports]
  rcases hd : decodeW pin with _ | ⟨g, k⟩
  · exact h
  · have hk := decodeW_lt hd
    have hm := decodeW_reaches hd
    rw [Ports.wf_iff] at h ⊢
    cases g
    · exact ⟨h.1, setBit_and_zero v hk hm h.2.1, h.2.2⟩
    · exact ⟨h.1, h.2.1, h.2.2.1, setBit_and_zero v hk hm h.2.2.2⟩

theorem Ports.wf_pinDir (pin : Byte) (v : Level) {s : State} (h : s.ports.wf = true) :
    (pinDir pin v s).2.ports.wf = true := by
  rw [pinDir_ports]
  rcases hd : decodeW pin with _ | ⟨g, k⟩
  · exact h
  · have hk := decodeW_lt hd
    have hm := decodeW_reaches hd
    rw [Ports.wf_iff] at h ⊢
    cases g
    · exact ⟨setBit_and_zero v hk hm h.1, h.2⟩
    · exact ⟨h.1, h.2.1, setBit_and_zero v hk hm h.2.2.1, h.2.2.2⟩

/-! ### Each operation keeps `Memory.wf` -/

theorem Memory.wf_of_eq {s t : State} (hc : t.cfg = s.cfg) (hb : t.buf.length = s.buf.length)
    (hp : s.ports.wf = true → t.ports.wf = true) (h : Memory.wf s = true) : Memory.wf t = true := by
  rw [Memory.wf_iff] at h ⊢
  exact ⟨by rw [hb, hc, h.1], hp h.2⟩

theorem Memory.wf_pinWrite (pin : Byte) (v : Level) {s : State} (h : Memory.wf s = true) :
    Memory.wf (pinWrite pin v s).2 = true :=
  Memory.wf_of_eq (pinWrite_cfg ..) (by rw [pinWrite_buf]) (Ports.wf_pinWrite pin v) h

theorem Memory.wf_pinDir (pin : Byte) (v : Level) {s : State} (h : Memory.wf s = true) :
    Memory.wf (pinDir pin v s).2 = true :=
  Memory.wf_of_eq (pinDir_cfg ..) (by rw [pinDir_buf]) (Ports.wf_pinDir pin v) h

theorem Memory.wf_bufWrite (i : Nat) (v : Level) {s : State} (h : Memory.wf s = true) :
    Memory.wf (bufWrite i v s) = true :=
  Memory.wf_of_eq (s := s) rfl (by simp) id h

theorem Memory.wf_resetState (s : State) : Memory.wf (resetState s) = true := by
  rw [Memory.wf_iff]
  exact ⟨by simp, by simp [Ports.wf_iff]⟩

theorem Memory.wf_envPads (a b : Byte) {s : State} (h : Memory.wf s = true) : Memory.wf (envPads a b s) = true :=
  Memory.wf_of_eq (s := s) rfl rfl id h

theorem Memory.wf_powerOn (c : Config) : Memory.wf (State.powerOn c) = true := by
  rw [Memory.wf_iff]
  exact ⟨by simp [State.powerOn], by simp [State.powerOn, Ports.wf_iff]⟩

theorem Memory.wf_reset : Memory.wf State.reset = true := Memory.wf_powerOn _

/-- A write of the buffer changes the one bit (20_memory.md R48): the bit written reads back, every other is left alone. -/
theorem bufWrite_getElem? (i : Nat) (v : Level) (s : State) (j : Nat) :
    (bufWrite i v s).buf[j]? = if j = i then s.buf[j]?.map fun _ => v else s.buf[j]? := by
  rw [bufWrite_buf, List.getElem?_set]
  split_ifs with h₁ h₂ h₃ <;> first | (subst h₁; simp_all) | simp_all

/-! ### The one port bit a primitive writes (20_memory.md R47) -/

theorem pinWrite_writesOutBit (pin : Byte) (v : Level) (s : State) :
    WritesOutBit pin v s.ports (pinWrite pin v s).2.ports :=
  ⟨pinWrite_ports pin v s, fun g k => ⟨pinWrite_outBit pin v s g k, pinWrite_dirBit pin v s g k⟩⟩

theorem pinDir_writesDirBit (pin : Byte) (v : Level) (s : State) :
    WritesDirBit pin v s.ports (pinDir pin v s).2.ports :=
  ⟨pinDir_ports pin v s, fun g k => ⟨pinDir_dirBit pin v s g k, pinDir_outBit pin v s g k⟩⟩

end Sys2Proof.Machine
end

