-- ==== Sys2Proof/Laws/Step.lean ====
section
/-! SUPPORT. What a step can do, said once: the inversion of `settle`, of `exec`, of the sequencer's micro-step and of
`step`. -/

namespace Sys2Proof.Machine

/-! ### settle -/

@[simp] theorem settleOutcome_next (b s : State) : settleOutcome b (.next s) = .next (settle b s) := rfl

theorem settleOutcome_eq_next {b t : State} {o : Host.Outcome State Fault Refusal} :
    settleOutcome b o = .next t ↔ ∃ u, o = .next u ∧ t = settle b u := by
  cases o <;> simp [settleOutcome, eq_comm]

/-! ### exec: every command answers a next state (41_shift_chain.md R97, 60_exceptions.md R120) -/

theorem exec_cfgdir (pin : Byte) (v : Level) (s : State) :
    exec (.cfgdir pin v) s = .next (respond (pinDir pin v s).1.response (pinDir pin v s).2) := rfl

theorem exec_pinwr (pin : Byte) (v : Level) (s : State) :
    exec (.pinwr pin v) s = .next (respond (pinWrite pin v s).1.response (pinWrite pin v s).2) := rfl

theorem exec_pinrd (pin : Byte) (s : State) :
    exec (.pinrd pin) s = .next (respond (pinRead pin s).1.response (pinRead pin s).2) := rfl

theorem exec_abspos_ok {r p : Byte} {s : State} (h : indexCheck s.cfg r p = true) :
    exec (.abspos r p) s = .next (respond (.ok (BitVec.ofNat 16 (absPos r p))) s) := if_pos h

theorem exec_abspos_range {r p : Byte} {s : State} (h : indexCheck s.cfg r p = false) :
    exec (.abspos r p) s = .next (respond .indexRange s) := if_neg (Bool.eq_false_iff.mp h)

theorem exec_regwr_ok {r p : Byte} {v : Level} {s : State} (h : indexCheck s.cfg r p = true) :
    exec (.regwr r p v) s = .next (startShift false (bufWrite (absPos r p) v s)) := if_pos h

theorem exec_regwr_range {r p : Byte} {v : Level} {s : State} (h : indexCheck s.cfg r p = false) :
    exec (.regwr r p v) s = .next (respond .indexRange s) := if_neg (Bool.eq_false_iff.mp h)

theorem exec_initch_ok {r : Byte} {s : State} (h : indexCheck s.cfg r 0#8 = true) :
    exec (.initch r) s =
      .next (startShift true (bufWrite (absPos r 0#8) false { s with seq := { s.seq with ireg := r, ipos := 0#3 } })) :=
  if_pos h

theorem exec_initch_range {r : Byte} {s : State} (h : indexCheck s.cfg r 0#8 = false) :
    exec (.initch r) s = .next (respond .indexRange s) := if_neg (Bool.eq_false_iff.mp h)

theorem exec_shout (s : State) : exec .shout s = .next (startShift false s) := rfl

theorem exec_answers (i : Instr) (s : State) : ∃ t, exec i s = .next t := by
  cases i with
  | cfgdir | pinwr | pinrd | shout => exact ⟨_, rfl⟩
  | abspos r p =>
    cases h : indexCheck s.cfg r p
    · exact ⟨_, exec_abspos_range h⟩
    · exact ⟨_, exec_abspos_ok h⟩
  | regwr r p v =>
    cases h : indexCheck s.cfg r p
    · exact ⟨_, exec_regwr_range h⟩
    · exact ⟨_, exec_regwr_ok h⟩
  | initch r =>
    cases h : indexCheck s.cfg r 0
    · exact ⟨_, exec_initch_range h⟩
    · exact ⟨_, exec_initch_ok h⟩

theorem indexCheck_iff (c : Config) (r p : Byte) :
    indexCheck c r p = true ↔ 1 ≤ r.toNat ∧ r.toNat ≤ c.m ∧ p.toNat ≤ 7 := by
  simp only [indexCheck, Bool.and_eq_true, decide_eq_true_eq, and_assoc]

/-- The reads change only the trace and the draw counter. -/
theorem pinRead_frame (pin : Byte) (s : State) :
    (pinRead pin s).2 = { s with trace := (pinRead pin s).2.trace, draws := (pinRead pin s).2.draws } := by
  unfold pinRead
  rcases decodeR pin with _ | ⟨g, k⟩
  · rfl
  · cases g <;> simp only [Group.inReg, memRead, sensed] <;> split_ifs <;> rfl

theorem pinRead_trace (pin : Byte) (s : State) : ∃ v, (pinRead pin s).2.trace = s.trace ++ [.rd pin v] := by
  unfold pinRead
  rcases decodeR pin with _ | ⟨g, k⟩
  · exact ⟨_, rfl⟩
  · refine ⟨(memRead g.inReg k s).1, ?_⟩
    cases g <;> simp only [Group.inReg, memRead, sensed] <;> split_ifs <;> rfl

/-! ### The sequencer (41_shift_chain.md R97) -/

theorem busy_iff (s : State) : busy s = true ↔ s.seq.phase ≠ .idle := decide_eq_true_iff

theorem busy_false_iff (s : State) : busy s = false ↔ s.seq.phase = .idle := by
  simp [busy]

/-- The micro-step of each phase, one equation a row of the table. -/
theorem seqStep_idle {s : State} (h : s.seq.phase = .idle) : seqStep s = .next s := by
  simp only [seqStep, h]

theorem seqStep_latchLo {s : State} (h : s.seq.phase = .latchLo) : seqStep s = .next (seqLatchLo s) := by
  simp only [seqStep, h]

theorem seqStep_clkLo {s : State} (h : s.seq.phase = .clkLo) : seqStep s = .next (seqClkLo s) := by
  simp only [seqStep, h]

theorem seqStep_pad {s : State} (h : s.seq.phase = .data) (hi : s.seq.idx.toNat = s.cfg.nbits) :
    seqStep s = .next (toPhase .clkHi (pinWrite s.cfg.pinDs (drawLevel s).1 (drawLevel s).2).2) := by
  simp only [seqStep, h, seqData, if_pos hi]

theorem seqStep_data {s : State} {d : Level} (h : s.seq.phase = .data) (hi : s.seq.idx.toNat ≠ s.cfg.nbits)
    (hd : s.buf[s.seq.idx.toNat]? = some d) :
    seqStep s = .next (toPhase .clkHi (pinWrite s.cfg.pinDs d s).2) := by
  simp only [seqStep, h, seqData, if_neg hi, hd]

theorem seqStep_clkHi {s : State} (h : s.seq.phase = .clkHi) : seqStep s = .next (seqClkHi s) := by
  simp only [seqStep, h]

theorem seqStep_nextBit {s : State} (h : s.seq.phase = .latchHi) (ha : s.seq.iact = true) (hp : s.seq.ipos.toNat < 7)
    (hc : indexCheck s.cfg s.seq.ireg 0#8 = true) :
    seqStep s = .next (toPhase .latchLo
      (bufWrite (absPos s.seq.ireg ((s.seq.ipos + 1#3).setWidth 8)) false
        { (pinWrite s.cfg.pinStcp true s).2 with seq := { s.seq with ipos := s.seq.ipos + 1#3 } })) := by
  simp only [seqStep, h, seqLatchHi, ha, hp, decide_true, Bool.and_self, if_true, hc]

theorem seqStep_done {s : State} (h : s.seq.phase = .latchHi) (hd : ¬(s.seq.iact = true ∧ s.seq.ipos.toNat < 7)) :
    seqStep s = .next (respond (.ok 0#16)
      (toPhase .idle { (pinWrite s.cfg.pinStcp true s).2 with seq := { s.seq with iact := false } })) := by
  have : (s.seq.iact && decide (s.seq.ipos.toNat < 7)) = false := by
    rw [Bool.eq_false_iff]; simpa using hd
  simp only [seqStep, h, seqLatchHi, this, Bool.false_eq_true, if_false]

/-- What a micro-step can do: nothing in IDLE; otherwise one pin write, and the sequencer moves on. The buffer changes only
inside an INITCH, and the only response is `OK`. -/
theorem seqStep_cases {s t : State} (h : seqStep s = .next t) :
    (s.seq.phase = .idle ∧ t = s) ∨
    (s.seq.phase ≠ .idle ∧ ∃ pin v,
      t.cfg = s.cfg ∧ t.inputs = s.inputs ∧ t.chain = s.chain ∧ t.ports = (pinWrite pin v s).2.ports ∧
      t.trace = s.trace ++ [.wr pin v] ∧
      (t.buf = s.buf ∨ (s.seq.phase = .latchHi ∧ s.seq.iact = true ∧ ∃ i, t.buf = s.buf.set i false)) ∧
      ((t.rsp = s.rsp ∧ t.seq.phase ≠ .idle) ∨ (t.rsp = some (.ok 0#16) ∧ t.seq.phase = .idle))) := by
  unfold seqStep at h
  split at h
  case h_1 hp => injection h with h; exact .inl ⟨hp, h.symm⟩
  case h_2 hp =>
    injection h with h; subst h
    refine .inr ⟨by simp [hp], s.cfg.pinStcp, false, ?_⟩
    simp [seqLatchLo]
  case h_3 hp =>
    injection h with h; subst h
    refine .inr ⟨by simp [hp], s.cfg.pinShcp, false, ?_⟩
    simp [seqClkLo]
  case h_4 hp =>
    unfold seqData at h
    split at h
    · injection h with h; subst h
      refine .inr ⟨by simp [hp], s.cfg.pinDs, (drawLevel s).1, ?_⟩
      simp [pinWrite_ports]
    · split at h
      · rename_i d _
        injection h with h; subst h
        refine .inr ⟨by simp [hp], s.cfg.pinDs, d, ?_⟩
        simp
      · cases h
  case h_5 hp =>
    injection h with h; subst h
    refine .inr ⟨by simp [hp], s.cfg.pinShcp, true, ?_⟩
    unfold seqClkHi
    split <;> simp
  case h_6 hp =>
    unfold seqLatchHi at h
    split at h
    · rename_i hc
      rw [Bool.and_eq_true] at hc
      split at h
      · injection h with h; subst h
        refine .inr ⟨by simp [hp], s.cfg.pinStcp, true, ?_⟩
        simp only [toPhase_cfg, bufWrite_cfg, pinWrite_cfg, toPhase_inputs, bufWrite_inputs, pinWrite_inputs, toPhase_chain,
          bufWrite_chain, pinWrite_chain, toPhase_ports, bufWrite_ports, toPhase_trace, bufWrite_trace, pinWrite_trace,
          toPhase_buf, bufWrite_buf, pinWrite_buf, toPhase_rsp, bufWrite_rsp, pinWrite_rsp, toPhase_seq, true_and]
        exact ⟨.inr ⟨hp, hc.1, _, rfl⟩, .inl (by simp)⟩
      · cases h
    · injection h with h; subst h
      refine .inr ⟨by simp [hp], s.cfg.pinStcp, true, ?_⟩
      simp

/-- A pin write neither reads nor writes the moves to come. -/
theorem pinWrite_withInputs (pin : Byte) (v : Level) (s : State) (l : List Input) :
    (pinWrite pin v { s with inputs := l }).2 = { (pinWrite pin v s).2 with inputs := l } := by
  unfold pinWrite; split <;> rfl

/-- The sequencer neither reads nor writes the moves to come. -/
theorem seqStep_withInputs {s t : State} (h : seqStep s = .next t) (l : List Input) :
    seqStep { s with inputs := l } = .next { t with inputs := l } := by
  unfold seqStep at h
  split at h
  case h_1 hp => injection h with h; subst h; exact seqStep_idle hp
  case h_2 hp =>
    injection h with h; subst h
    rw [seqStep_latchLo (s := { s with inputs := l }) hp]; simp only [seqLatchLo, toPhase, pinWrite_withInputs]
  case h_3 hp =>
    injection h with h; subst h
    rw [seqStep_clkLo (s := { s with inputs := l }) hp]; simp only [seqClkLo, toPhase, pinWrite_withInputs]
  case h_4 hp =>
    unfold seqData at h
    split at h
    case isTrue hn =>
      injection h with h; subst h
      rw [seqStep_pad (s := { s with inputs := l }) hp hn]
      exact congrArg (fun u => Host.Outcome.next (toPhase .clkHi u))
        (pinWrite_withInputs s.cfg.pinDs (drawLevel s).1 (drawLevel s).2 l)
    case isFalse hn =>
      split at h
      · rename_i d hd
        injection h with h; subst h
        rw [seqStep_data (s := { s with inputs := l }) hp hn hd]; simp only [toPhase, pinWrite_withInputs]
      · cases h
  case h_5 hp =>
    injection h with h; subst h
    rw [seqStep_clkHi (s := { s with inputs := l }) hp]; simp only [seqClkHi, toPhase, pinWrite_withInputs]
    split <;> rfl
  case h_6 hp =>
    unfold seqLatchHi at h
    split at h
    case isTrue hn =>
      rw [Bool.and_eq_true, decide_eq_true_iff] at hn
      split at h
      case isTrue hc =>
        injection h with h; subst h
        rw [seqStep_nextBit (s := { s with inputs := l }) hp hn.1 hn.2 hc]; simp only [toPhase, bufWrite, pinWrite_withInputs]
      case isFalse hc => cases h
    case isFalse hn =>
      rw [Bool.and_eq_true, decide_eq_true_iff] at hn
      injection h with h; subst h
      rw [seqStep_done (s := { s with inputs := l }) hp hn]; simp only [respond, toPhase, pinWrite_withInputs]

/-! ### step -/

/-- What a step can do: a micro-step of the sequencer, a move of the environment, a reset, or the acceptance of a word. -/
theorem step_cases {s t : State} (h : step s = .next t) :
    (∃ u, t = settle s u ∧ seqStep s = .next u ∧
      (s.inputs = [] ∨ (busy s = true ∧ ∃ w rest, s.inputs = .offer w :: rest))) ∨
    (∃ rest u, s.inputs = .idle :: rest ∧ t = settle s u ∧ seqStep { s with inputs := rest } = .next u) ∨
    (∃ a b rest, s.inputs = .pads a b :: rest ∧ t = settle s (envPads a b { s with inputs := rest })) ∨
    (∃ rest, s.inputs = .reset :: rest ∧ t = settle s (resetState { s with inputs := rest })) ∨
    (busy s = false ∧ ∃ w rest, s.inputs = .offer w :: rest ∧
      ((∃ i u, decode w = .ok i ∧ exec i { s with inputs := rest } = .next u ∧ t = settle s u) ∨
        (∃ e, decode w = .error e ∧ t = settle s (respond .illegalCommand { s with inputs := rest })))) := by
  unfold step at h
  split at h
  case h_1 hi =>
    obtain ⟨u, hu, rfl⟩ := settleOutcome_eq_next.mp h
    exact .inl ⟨u, rfl, hu, .inl hi⟩
  case h_2 rest hi =>
    obtain ⟨u, hu, rfl⟩ := settleOutcome_eq_next.mp h
    exact .inr (.inl ⟨rest, u, hi, rfl, hu⟩)
  case h_3 a b rest hi =>
    injection h with h
    exact .inr (.inr (.inl ⟨a, b, rest, hi, h.symm⟩))
  case h_4 rest hi =>
    injection h with h
    exact .inr (.inr (.inr (.inl ⟨rest, hi, h.symm⟩)))
  case h_5 w rest hi =>
    split at h
    · rename_i hb
      obtain ⟨u, hu, rfl⟩ := settleOutcome_eq_next.mp h
      exact .inl ⟨u, rfl, hu, .inr ⟨hb, w, rest, hi⟩⟩
    · rename_i hb
      obtain ⟨u, hu, rfl⟩ := settleOutcome_eq_next.mp h
      refine .inr (.inr (.inr (.inr ⟨by simpa using hb, w, rest, hi, ?_⟩)))
      unfold accept at hu
      split at hu
      · rename_i i hd
        exact .inl ⟨i, u, hd, hu, rfl⟩
      · rename_i e hd
        injection hu with hu
        exact .inr ⟨e, hd, by rw [hu]⟩

end Sys2Proof.Machine
end

