-- ==== Sys2Proof/Laws/Run.lean ====
section
/-! SUPPORT. Runs of several steps: what the pieces of a ShiftOut leave alone, the step of a busy SRSER for each row of the
sequencer's table, and how many steps of it make up a clocked bit and a whole serialisation. -/

namespace Sys2Proof.Machine

/-! ### runSteps -/

theorem runSteps_zero (s : State) : runSteps 0 s = .next s := rfl

theorem runSteps_succ {n : Nat} {s t : State} (h : step s = .next t) : runSteps (n + 1) s = runSteps n t := by
  have hc : Sys2Proof.core.step s = .next t := h
  show Host.Core.run Sys2Proof.core (n + 1) s = _
  simp only [Host.Core.run, hc]
  rfl

theorem runSteps_succ_inv {n : Nat} {s t : State} (h : runSteps (n + 1) s = .next t) :
    ∃ u, step s = .next u ∧ runSteps n u = .next t := by
  have h : Host.Core.run Sys2Proof.core (n + 1) s = .next t := h
  cases hs : step s with
  | next u =>
    have hc : Sys2Proof.core.step s = .next u := hs
    simp only [Host.Core.run, hc] at h
    exact ⟨u, rfl, h⟩
  | fault r =>
    have hc : Sys2Proof.core.step s = .fault r := hs
    simp only [Host.Core.run, hc] at h
    cases h
  | refused r =>
    have hc : Sys2Proof.core.step s = .refused r := hs
    simp only [Host.Core.run, hc] at h
    cases h

/-- A run can be cut where a first part of it is known. -/
theorem runSteps_add {n m : Nat} {s t : State} (h : runSteps n s = .next t) : runSteps (n + m) s = runSteps m t := by
  induction n generalizing s with
  | zero => injection h with h; subst h; rw [Nat.zero_add]
  | succ n ih =>
    obtain ⟨u, hu, h⟩ := runSteps_succ_inv h
    rw [Nat.add_right_comm, runSteps_succ hu]
    exact ih h

/-- A run that answers a next state can be cut anywhere. -/
theorem runSteps_split {n m : Nat} {s t : State} (h : runSteps (n + m) s = .next t) :
    ∃ u, runSteps n s = .next u ∧ runSteps m u = .next t := by
  induction n generalizing s with
  | zero => exact ⟨s, rfl, by simpa using h⟩
  | succ n ih =>
    rw [Nat.add_right_comm] at h
    obtain ⟨u, hu, h⟩ := runSteps_succ_inv h
    obtain ⟨v, hv, h⟩ := ih h
    exact ⟨v, by rw [runSteps_succ hu, hv], h⟩

/-! ### A sequencer position of one's own choice -/

/-- `s` with the sequencer at `q`. -/
def withSeq (q : Seq) (s : State) : State := { s with seq := q }

@[simp] theorem withSeq_cfg (q : Seq) (s : State) : (withSeq q s).cfg = s.cfg := by rfl
@[simp] theorem withSeq_ports (q : Seq) (s : State) : (withSeq q s).ports = s.ports := by rfl
@[simp] theorem withSeq_buf (q : Seq) (s : State) : (withSeq q s).buf = s.buf := by rfl
@[simp] theorem withSeq_seq (q : Seq) (s : State) : (withSeq q s).seq = q := by rfl
@[simp] theorem withSeq_rsp (q : Seq) (s : State) : (withSeq q s).rsp = s.rsp := by rfl
@[simp] theorem withSeq_inputs (q : Seq) (s : State) : (withSeq q s).inputs = s.inputs := by rfl
@[simp] theorem withSeq_draws (q : Seq) (s : State) : (withSeq q s).draws = s.draws := by rfl
@[simp] theorem withSeq_trace (q : Seq) (s : State) : (withSeq q s).trace = s.trace := by rfl
@[simp] theorem withSeq_chain (q : Seq) (s : State) : (withSeq q s).chain = s.chain := by rfl
@[simp] theorem withSeq_withSeq (q q' : Seq) (s : State) : withSeq q (withSeq q' s) = withSeq q s := by rfl
theorem withSeq_self (s : State) : withSeq s.seq s = s := rfl

theorem drawLevel_withSeq (q : Seq) (s : State) :
    drawLevel (withSeq q s) = ((drawLevel s).1, withSeq q (drawLevel s).2) := rfl

theorem bufWrite_withSeq (i : Nat) (v : Level) (q : Seq) (s : State) :
    bufWrite i v (withSeq q s) = withSeq q (bufWrite i v s) := rfl

/-! ### The pieces of a ShiftOut (41_shift_chain.md R94): what they leave alone -/

@[simp] theorem lineWrite_cfg (pin : Byte) (v : Level) (s : State) : (lineWrite pin v s).cfg = s.cfg := by
  simp [lineWrite]
@[simp] theorem lineWrite_buf (pin : Byte) (v : Level) (s : State) : (lineWrite pin v s).buf = s.buf := by
  simp [lineWrite]
@[simp] theorem lineWrite_seq (pin : Byte) (v : Level) (s : State) : (lineWrite pin v s).seq = s.seq := by
  simp [lineWrite]
@[simp] theorem lineWrite_rsp (pin : Byte) (v : Level) (s : State) : (lineWrite pin v s).rsp = s.rsp := by
  simp [lineWrite]
@[simp] theorem lineWrite_inputs (pin : Byte) (v : Level) (s : State) : (lineWrite pin v s).inputs = s.inputs := by
  simp [lineWrite]
@[simp] theorem lineWrite_draws (pin : Byte) (v : Level) (s : State) : (lineWrite pin v s).draws = s.draws := by
  simp [lineWrite]
@[simp] theorem lineWrite_trace (pin : Byte) (v : Level) (s : State) :
    (lineWrite pin v s).trace = s.trace ++ [.wr pin v] := by
  simp [lineWrite]

/-- Nothing in a pin write reads the sequencer. -/
theorem lineWrite_withSeq (pin : Byte) (v : Level) (q : Seq) (s : State) :
    lineWrite pin v (withSeq q s) = withSeq q (lineWrite pin v s) := by
  have : (pinWrite pin v (withSeq q s)).2 = withSeq q (pinWrite pin v s).2 := by
    unfold pinWrite; split <;> rfl
  unfold lineWrite; rw [this]; rfl

@[simp] theorem clockBit_cfg (d : Level) (s : State) : (clockBit d s).cfg = s.cfg := by simp [clockBit]
@[simp] theorem clockBit_buf (d : Level) (s : State) : (clockBit d s).buf = s.buf := by simp [clockBit]
@[simp] theorem clockBit_seq (d : Level) (s : State) : (clockBit d s).seq = s.seq := by simp [clockBit]
@[simp] theorem clockBit_rsp (d : Level) (s : State) : (clockBit d s).rsp = s.rsp := by simp [clockBit]
@[simp] theorem clockBit_inputs (d : Level) (s : State) : (clockBit d s).inputs = s.inputs := by simp [clockBit]
@[simp] theorem clockBit_draws (d : Level) (s : State) : (clockBit d s).draws = s.draws := by simp [clockBit]

@[simp] theorem clockBit_withSeq (d : Level) (q : Seq) (s : State) :
    clockBit d (withSeq q s) = withSeq q (clockBit d s) := by
  simp [clockBit, lineWrite_withSeq]

@[simp] theorem sendBits_withSeq (n : Nat) (q : Seq) (s : State) :
    sendBits n (withSeq q s) = withSeq q (sendBits n s) := by
  induction n generalizing s with
  | zero => rfl
  | succ n ih => simp [sendBits, ih]

theorem sendBits_frame (n : Nat) (s : State) :
    (sendBits n s).cfg = s.cfg ∧ (sendBits n s).inputs = s.inputs ∧ (sendBits n s).buf = s.buf ∧
      (sendBits n s).seq = s.seq ∧ (sendBits n s).rsp = s.rsp := by
  induction n generalizing s with
  | zero => simp [sendBits]
  | succ n ih =>
    have h := ih (clockBit (s.buf.getD n false) s)
    simp only [sendBits, h, clockBit_cfg, clockBit_inputs, clockBit_buf, clockBit_seq, clockBit_rsp, and_self]

theorem padPulse_frame (s : State) :
    (padPulse s).cfg = s.cfg ∧ (padPulse s).inputs = s.inputs ∧ (padPulse s).buf = s.buf ∧
      (padPulse s).seq = s.seq ∧ (padPulse s).rsp = s.rsp := by
  unfold padPulse; split <;> simp

@[simp] theorem padPulse_withSeq (q : Seq) (s : State) : padPulse (withSeq q s) = withSeq q (padPulse s) := by
  simp only [padPulse, withSeq_cfg]
  split <;> simp_all [lineWrite_withSeq, drawLevel_withSeq]

/-- A ShiftOut changes the output registers, the trace, the draw counter and the external chain only. -/
theorem shiftOut_frame (s : State) :
    (shiftOut s).cfg = s.cfg ∧ (shiftOut s).inputs = s.inputs ∧ (shiftOut s).buf = s.buf ∧
      (shiftOut s).seq = s.seq ∧ (shiftOut s).rsp = s.rsp := by
  have h := sendBits_frame s.cfg.nbits (padPulse (lineWrite s.cfg.pinStcp false s))
  have h' := padPulse_frame (lineWrite s.cfg.pinStcp false s)
  unfold shiftOut
  simp_all

@[simp] theorem shiftOut_withSeq (q : Seq) (s : State) : shiftOut (withSeq q s) = withSeq q (shiftOut s) := by
  simp [shiftOut, lineWrite_withSeq]

/-! ### One step for each row of the sequencer's table (41_shift_chain.md R97) -/

/-- The only moves to come are none, or an offer that has to wait. -/
def offersWait (l : List Input) : Prop := l = [] ∨ ∃ w rest, l = .offer w :: rest

theorem step_busy {s : State} (hb : busy s = true) (hi : offersWait s.inputs) :
    step s = settleOutcome s (seqStep s) := by
  rcases hi with hi | ⟨w, rest, hi⟩ <;> simp [step, hi, hb, tick]

theorem step_latchLo {s : State} (hp : s.seq.phase = .latchLo) (hi : offersWait s.inputs) :
    step s = .next (withSeq
      { s.seq with phase := .clkLo, idx := BitVec.ofNat 11 (s.cfg.nbits - 1 + s.cfg.pad.toNat) }
      (lineWrite s.cfg.pinStcp false s)) := by
  rw [step_busy ((busy_iff s).mpr (by simp [hp])) hi, seqStep_latchLo hp]; rfl

theorem step_clkLo {s : State} (hp : s.seq.phase = .clkLo) (hi : offersWait s.inputs) :
    step s = .next (withSeq { s.seq with phase := .data } (lineWrite s.cfg.pinShcp false s)) := by
  rw [step_busy ((busy_iff s).mpr (by simp [hp])) hi, seqStep_clkLo hp]
  simp only [seqClkLo, toPhase, pinWrite_seq]; rfl

theorem step_data {s : State} {d : Level} (hp : s.seq.phase = .data) (hi : offersWait s.inputs)
    (hn : s.seq.idx.toNat ≠ s.cfg.nbits) (hd : s.buf[s.seq.idx.toNat]? = some d) :
    step s = .next (withSeq { s.seq with phase := .clkHi } (lineWrite s.cfg.pinDs d s)) := by
  rw [step_busy ((busy_iff s).mpr (by simp [hp])) hi, seqStep_data hp hn hd]
  simp only [toPhase, pinWrite_seq]; rfl

theorem step_pad {s : State} (hp : s.seq.phase = .data) (hi : offersWait s.inputs)
    (hn : s.seq.idx.toNat = s.cfg.nbits) :
    step s = .next (withSeq { s.seq with phase := .clkHi }
      (lineWrite s.cfg.pinDs (drawLevel s).1 (drawLevel s).2)) := by
  rw [step_busy ((busy_iff s).mpr (by simp [hp])) hi, seqStep_pad hp hn]
  simp only [toPhase, pinWrite_seq]; rfl

theorem step_clkHi_last {s : State} (hp : s.seq.phase = .clkHi) (hi : offersWait s.inputs) (hz : s.seq.idx = 0#11) :
    step s = .next (withSeq { s.seq with phase := .latchHi } (lineWrite s.cfg.pinShcp true s)) := by
  rw [step_busy ((busy_iff s).mpr (by simp [hp])) hi, seqStep_clkHi hp]
  simp only [seqClkHi, if_pos hz, toPhase, pinWrite_seq]; rfl

theorem step_clkHi {s : State} (hp : s.seq.phase = .clkHi) (hi : offersWait s.inputs) (hz : s.seq.idx ≠ 0#11) :
    step s = .next (withSeq { s.seq with phase := .clkLo, idx := s.seq.idx - 1#11 }
      (lineWrite s.cfg.pinShcp true s)) := by
  rw [step_busy ((busy_iff s).mpr (by simp [hp])) hi, seqStep_clkHi hp]
  simp only [seqClkHi, if_neg hz, toPhase]; rfl

theorem step_latchHi_done {s : State} (hp : s.seq.phase = .latchHi) (hi : offersWait s.inputs)
    (hd : ¬(s.seq.iact = true ∧ s.seq.ipos.toNat < 7)) :
    step s = .next (respond (.ok 0#16)
      (withSeq { s.seq with phase := .idle, iact := false } (lineWrite s.cfg.pinStcp true s))) := by
  rw [step_busy ((busy_iff s).mpr (by simp [hp])) hi, seqStep_done hp hd]; rfl

theorem step_latchHi_next {s : State} (hp : s.seq.phase = .latchHi) (hi : offersWait s.inputs)
    (ha : s.seq.iact = true) (h7 : s.seq.ipos.toNat < 7) (hc : indexCheck s.cfg s.seq.ireg 0#8 = true) :
    step s = .next (bufWrite (absPos s.seq.ireg ((s.seq.ipos + 1#3).setWidth 8)) false
      (withSeq { s.seq with phase := .latchLo, ipos := s.seq.ipos + 1#3 } (lineWrite s.cfg.pinStcp true s))) := by
  rw [step_busy ((busy_iff s).mpr (by simp [hp])) hi, seqStep_nextBit hp ha h7 hc]; rfl

/-! ### The loop (41_shift_chain.md R98) -/

/-- Three steps clock one bit of the buffer. -/
theorem run_clockBit {s : State} {d : Level} (hp : s.seq.phase = .clkLo) (hi : offersWait s.inputs)
    (hn : s.seq.idx.toNat ≠ s.cfg.nbits) (hd : s.buf[s.seq.idx.toNat]? = some d) :
    runSteps 3 s = .next (withSeq
      (if s.seq.idx = 0#11 then { s.seq with phase := .latchHi }
        else { s.seq with phase := .clkLo, idx := s.seq.idx - 1#11 })
      (clockBit d s)) := by
  rw [runSteps_succ (step_clkLo hp hi),
    runSteps_succ (step_data (d := d) rfl (by simpa using hi) (by simpa using hn) (by simpa using hd))]
  split
  · rename_i hz
    rw [runSteps_succ (step_clkHi_last rfl (by simpa using hi) (by simpa using hz)), runSteps_zero]
    simp [clockBit, lineWrite_withSeq]
  · rename_i hz
    rw [runSteps_succ (step_clkHi rfl (by simpa using hi) (by simpa using hz)), runSteps_zero]
    simp [clockBit, lineWrite_withSeq]

/-- From the counter at `i`, the loop sends the bits `i, i-1, ..., 0`. -/
theorem run_sendBits (i : Nat) {s : State} (hp : s.seq.phase = .clkLo) (hi : offersWait s.inputs)
    (hx : s.seq.idx.toNat = i) (hl : s.buf.length = s.cfg.nbits) (hn : i < s.cfg.nbits) :
    runSteps (3 * (i + 1)) s =
      .next (withSeq { s.seq with phase := .latchHi, idx := 0#11 } (sendBits (i + 1) s)) := by
  have hd : s.buf[s.seq.idx.toNat]? = some (s.buf.getD i false) := by
    rw [hx, List.getD_eq_getElem?_getD, List.getElem?_eq_getElem (by omega)]; rfl
  have hbit := run_clockBit hp hi (by omega) hd
  induction i generalizing s with
  | zero =>
    have hz : s.seq.idx = 0#11 := BitVec.eq_of_toNat_eq (by simpa using hx)
    rw [if_pos hz] at hbit
    rw [show 3 * (0 + 1) = 3 from rfl, hbit]
    simp [sendBits, ← hz]
  | succ i ih =>
    have hz : s.seq.idx ≠ 0#11 := by intro h; rw [h] at hx; simp at hx
    rw [if_neg hz] at hbit
    rw [show 3 * (i + 1 + 1) = 3 + 3 * (i + 1) by omega, runSteps_add hbit]
    have hidx : (s.seq.idx - 1#11).toNat = i := by bv_omega
    have hd' : s.buf[(s.seq.idx - 1#11).toNat]? = some (s.buf.getD i false) := by
      rw [hidx, List.getD_eq_getElem?_getD, List.getElem?_eq_getElem (by omega)]; rfl
    rw [ih rfl (by simpa using hi) (by simpa using hidx) (by simpa using hl) (by simp; omega) (by simpa using hd')
      (run_clockBit rfl (by simpa using hi) (by simp only [withSeq_seq, withSeq_cfg, clockBit_cfg]; omega)
        (by simpa using hd'))]
    simp [sendBits]

end Sys2Proof.Machine
end

