-- ==== Sys2Proof/Laws/Chain.lean ====
section
/-! SUPPORT. What the external chain makes of each write of a control line, while `WF_CHAIN` holds
(42_external_chain.md R111 to R114). -/

namespace Sys2Proof.Machine

theorem wfChain_iff (s : State) :
    wfChain s = true ↔ s.cfg.wfPins = true ∧ (lineDrive s.cfg.pinDs s.ports).isSome ∧
      (lineDrive s.cfg.pinShcp s.ports).isSome ∧ (lineDrive s.cfg.pinStcp s.ports).isSome := by
  simp only [wfChain, Bool.and_eq_true, and_assoc]

theorem wfPins_ne {c : Config} (h : c.wfPins = true) :
    c.pinDs ≠ c.pinShcp ∧ c.pinDs ≠ c.pinStcp ∧ c.pinShcp ≠ c.pinStcp := by
  simp only [Config.wfPins, Bool.and_eq_true, decide_eq_true_eq] at h
  exact ⟨h.1.1.2, h.1.2, h.2⟩

/-- Under `WF_CHAIN` every control line has a level. -/
theorem lineDrive_of_wfChain {s : State} (h : wfChain s = true) :
    (∃ d, lineDrive s.cfg.pinDs s.ports = some d) ∧ (∃ c, lineDrive s.cfg.pinShcp s.ports = some c) ∧
      ∃ l, lineDrive s.cfg.pinStcp s.ports = some l := by
  obtain ⟨-, h₂, h₃, h₄⟩ := (wfChain_iff s).mp h
  exact ⟨Option.isSome_iff_exists.mp h₂, Option.isSome_iff_exists.mp h₃, Option.isSome_iff_exists.mp h₄⟩

theorem wfChain_lineWrite (pin : Byte) (v : Level) (s : State) : wfChain (lineWrite pin v s) = wfChain s := by
  have : wfChain (lineWrite pin v s) = wfChain (pinWrite pin v s).2 := rfl
  rw [this, wfChain_pinWrite]

theorem lineDrive_lineWrite (p pin : Byte) (v : Level) (s : State) :
    lineDrive p (lineWrite pin v s).ports =
      if p = pin then (lineDrive p s.ports).map fun _ => v else lineDrive p s.ports := by
  simp only [lineWrite, settle_ports, lineDrive_pinWrite]

theorem rising_low (x : Option Level) : rising x (some false) = false := by
  rcases x with _ | (_ | _) <;> rfl

/-- The chain after a write of any pin: its reaction to the edges of the two lines. -/
theorem lineWrite_chain (pin : Byte) (v : Level) {s : State} (h : wfChain s = true) :
    (lineWrite pin v s).chain = s.chain.react
      (rising (lineDrive s.cfg.pinShcp s.ports)
        (if s.cfg.pinShcp = pin then some v else lineDrive s.cfg.pinShcp s.ports))
      (rising (lineDrive s.cfg.pinStcp s.ports)
        (if s.cfg.pinStcp = pin then some v else lineDrive s.cfg.pinStcp s.ports))
      (if s.cfg.pinDs = pin then v else (lineDrive s.cfg.pinDs s.ports).getD false) := by
  obtain ⟨⟨d, hd⟩, ⟨c, hc⟩, ⟨l, hl⟩⟩ := lineDrive_of_wfChain h
  have hw : wfChain (pinWrite pin v s).2 = true := by rw [wfChain_pinWrite, h]
  simp only [lineWrite, settle_chain, chainAfter, h, hw, lineDrive_pinWrite, pinWrite_cfg, pinWrite_chain, hd, hc, hl]
  simp only [Bool.and_self, if_true, Option.map_some]
  congr 1
  split_ifs <;> rfl

/-- A write of 0 makes no rising edge. -/
theorem lineWrite_chain_low (pin : Byte) {s : State} (h : wfChain s = true) :
    (lineWrite pin false s).chain = s.chain := by
  have low : ∀ q, rising (lineDrive q s.ports) (if q = pin then some false else lineDrive q s.ports) = false := by
    intro q
    split
    · exact rising_low _
    · exact rising_self _
  rw [lineWrite_chain _ _ h]
  simp [low, ExtChain.react]

/-- A write of the data line alone moves nothing. -/
theorem lineWrite_chain_data (v : Level) {s : State} (h : wfChain s = true) :
    (lineWrite s.cfg.pinDs v s).chain = s.chain := by
  obtain ⟨h₁, h₂, -⟩ := wfPins_ne ((wfChain_iff s).mp h).1
  rw [lineWrite_chain _ _ h, if_neg (Ne.symm h₁), if_neg (Ne.symm h₂)]
  simp [rising_self, ExtChain.react]

/-- A rising edge of the clock line (42_external_chain.md R112). -/
theorem lineWrite_chain_clock {s : State} {d : Level} (h : wfChain s = true)
    (hc : lineDrive s.cfg.pinShcp s.ports = some false) (hd : lineDrive s.cfg.pinDs s.ports = some d) :
    (lineWrite s.cfg.pinShcp true s).chain = s.chain.clock d := by
  obtain ⟨h₁, -, h₃⟩ := wfPins_ne ((wfChain_iff s).mp h).1
  rw [lineWrite_chain _ _ h, if_pos rfl, if_neg (Ne.symm h₃), if_neg h₁, hc, hd, rising_self]
  simp [ExtChain.react, rising]

/-- A rising edge of the latch line (42_external_chain.md R113). -/
theorem lineWrite_chain_latch {s : State} (h : wfChain s = true)
    (hl : lineDrive s.cfg.pinStcp s.ports = some false) :
    (lineWrite s.cfg.pinStcp true s).chain = s.chain.latch := by
  obtain ⟨-, h₂, h₃⟩ := wfPins_ne ((wfChain_iff s).mp h).1
  rw [lineWrite_chain _ _ h, if_pos rfl, if_neg h₃, if_neg h₂, hl, rising_self]
  simp [ExtChain.react, rising]

theorem wfChain_clockBit (d : Level) (s : State) : wfChain (clockBit d s) = wfChain s := by
  simp [clockBit, wfChain_lineWrite]

/-- One iteration of the loop clocks one bit into the chain, whatever the lines carried before. -/
theorem clockBit_chain (d : Level) {s : State} (h : wfChain s = true) : (clockBit d s).chain = s.chain.clock d := by
  obtain ⟨h₁, -, -⟩ := wfPins_ne ((wfChain_iff s).mp h).1
  obtain ⟨⟨d₀, hd⟩, ⟨c₀, hc⟩, -⟩ := lineDrive_of_wfChain h
  have hclk := lineWrite_chain_clock (s := lineWrite s.cfg.pinDs d (lineWrite s.cfg.pinShcp false s)) (d := d)
    (by simp [wfChain_lineWrite, h]) (by simp [lineDrive_lineWrite, Ne.symm h₁, hc])
    (by simp [lineDrive_lineWrite, h₁, hd])
  have hdat := lineWrite_chain_data d (s := lineWrite s.cfg.pinShcp false s) (by simp [wfChain_lineWrite, h])
  simp only [lineWrite_cfg] at hclk hdat
  rw [clockBit, hclk, hdat, lineWrite_chain_low _ h]

/-- The loop does not touch the latch line. -/
theorem clockBit_stcp (d : Level) {s : State} (h : wfChain s = true) :
    lineDrive s.cfg.pinStcp (clockBit d s).ports = lineDrive s.cfg.pinStcp s.ports := by
  obtain ⟨-, h₂, h₃⟩ := wfPins_ne ((wfChain_iff s).mp h).1
  simp only [clockBit, lineDrive_lineWrite, Ne.symm h₂, Ne.symm h₃, if_false]

end Sys2Proof.Machine
end

