-- ==== Sys2Proof/Laws/Encoding.lean ====
section
/-! SUPPORT. The fields of a laid-out word, and the bits of a word: what proofs about the decoder and the encoder cite
instead of unfolding them. -/

namespace Sys2Proof

/-- Every bit of the shared layout of 30_encoding.md R61. -/
theorem layout_getLsbD (op : BitVec 4) (a b : Byte) (v : Level) (j : Nat) :
    (layout op a b v).getLsbD j =
      if j = 0 then v
      else if j < 8 then false
      else if j < 16 then b.getLsbD (j - 8)
      else if j < 24 then a.getLsbD (j - 16)
      else if j < 28 then false
      else op.getLsbD (j - 28) := by
  simp only [layout, BitVec.getLsbD_append, BitVec.getLsbD_ofBool, BitVec.getLsbD_zero]
  rcases Nat.lt_or_ge j 1 with h | h
  · obtain rfl : j = 0 := by omega
    simp
  · have h0 : j ≠ 0 := by omega
    have e1 : j - 1 - 7 = j - 8 := by omega
    have e2 : j - 8 - 8 = j - 16 := by omega
    have e3 : j - 16 - 8 = j - 24 := by omega
    have e4 : j - 24 - 4 = j - 28 := by omega
    have c1 : (j - 1 < 7) ↔ j < 8 := by omega
    have c2 : (j - 8 < 8) ↔ j < 16 := by omega
    have c3 : (j - 16 < 8) ↔ j < 24 := by omega
    have c4 : (j - 24 < 4) ↔ j < 28 := by omega
    simp only [h0, Nat.not_lt.mpr h, if_false, e1, e2, e3, e4, c1, c2, c3, c4]

theorem fieldOp_layout (op : BitVec 4) (a b : Byte) (v : Level) : fieldOp (layout op a b v) = op := by
  ext j hj
  simp only [fieldOp, BitVec.getElem_extractLsb', layout_getLsbD]
  rw [if_neg (by omega), if_neg (by omega), if_neg (by omega), if_neg (by omega), if_neg (by omega),
    Nat.add_sub_cancel_left, BitVec.getLsbD_eq_getElem hj]

theorem fieldA_layout (op : BitVec 4) (a b : Byte) (v : Level) : fieldA (layout op a b v) = a := by
  ext j hj
  simp only [fieldA, BitVec.getElem_extractLsb', layout_getLsbD]
  rw [if_neg (by omega), if_neg (by omega), if_neg (by omega), if_pos (by omega), Nat.add_sub_cancel_left,
    BitVec.getLsbD_eq_getElem hj]

theorem fieldB_layout (op : BitVec 4) (a b : Byte) (v : Level) : fieldB (layout op a b v) = b := by
  ext j hj
  simp only [fieldB, BitVec.getElem_extractLsb', layout_getLsbD]
  rw [if_neg (by omega), if_neg (by omega), if_pos (by omega), Nat.add_sub_cancel_left,
    BitVec.getLsbD_eq_getElem hj]

theorem fieldV_layout (op : BitVec 4) (a b : Byte) (v : Level) : fieldV (layout op a b v) = v := by
  rw [fieldV, layout_getLsbD, if_pos rfl]

/-- A word agrees with a row exactly when it agrees bit by bit under the row's mask. -/
theorem and_mask_eq_iff (w mask value : Word) :
    w &&& mask = value ↔ ∀ j : Fin 32, (w.getLsbD j && mask.getLsbD j) = value.getLsbD j := by
  constructor
  · rintro rfl j
    rw [BitVec.getLsbD_and]
  · intro h
    apply BitVec.eq_of_getLsbD_eq
    intro j hj
    rw [BitVec.getLsbD_and]
    exact h ⟨j, hj⟩

theorem hits_iff (row : OpRow) (w : Word) : row.hits w = true ↔ w &&& row.mask = row.value := decide_eq_true_iff

theorem fieldOp_toNat (w : Word) : (fieldOp w).toNat = w.toNat / 2 ^ 28 := by
  simp only [fieldOp, BitVec.extractLsb'_toNat, Nat.shiftRight_eq_div_pow]
  omega

theorem decodeRow_eq_ok {row : OpRow} {i j : Instr} {w : Word} :
    decodeRow row i w = .ok j ↔ row.hits w = true ∧ i = j := by
  unfold decodeRow
  cases row.hits w <;> simp

/-- The command an opcode names, with the fields of the word as its operands (30_encoding.md R63, R64). -/
def instrOfFields (w : Word) : Instr → Instr
  | .cfgdir _ _ => .cfgdir (fieldA w) (fieldV w)
  | .pinwr _ _ => .pinwr (fieldA w) (fieldV w)
  | .pinrd _ => .pinrd (fieldA w)
  | .abspos _ _ => .abspos (fieldA w) (fieldB w)
  | .regwr _ _ _ => .regwr (fieldA w) (fieldB w) (fieldV w)
  | .initch _ => .initch (fieldA w)
  | .shout => .shout

/-- What the decoder answers when it does not answer `Illegal`: the word lies in the command's row, and the operands are its
fields (30_encoding.md R66). -/
theorem decode_eq_ok {w : Word} {i : Instr} (h : decode w = .ok i) :
    (rowOf i).hits w = true ∧ fieldOp w = (rowOf i).op ∧ i = instrOfFields w i := by
  have key : ∀ {row : OpRow} {j : Instr} {n : Nat}, (fieldOp w).toNat = n → decodeRow row j w = .ok i →
      rowOf j = row → row.op.toNat = n → j = instrOfFields w j →
      (rowOf i).hits w = true ∧ fieldOp w = (rowOf i).op ∧ i = instrOfFields w i := by
    intro row j n hop hd hrow hn hj
    obtain ⟨hh, rfl⟩ := decodeRow_eq_ok.mp hd
    subst hrow
    exact ⟨hh, BitVec.eq_of_toNat_eq (by rw [hop, hn]), hj⟩
  unfold decode at h
  split at h
  case h_1 hop => exact key hop h rfl rfl rfl
  case h_2 hop => exact key hop h rfl rfl rfl
  case h_3 hop => exact key hop h rfl rfl rfl
  case h_4 hop => exact key hop h rfl rfl rfl
  case h_5 hop => exact key hop h rfl rfl rfl
  case h_6 hop => exact key hop h rfl rfl rfl
  case h_7 hop => exact key hop h rfl rfl rfl
  case h_8 => cases h

end Sys2Proof
end

