-- ==== Sys2Proof/Laws/PerInstr.lean ====
section
/-! SUPPORT. Statements made of every command, one lemma per constructor. -/

namespace Sys2Proof.Laws

/-- The word of a command lies in its own row of the opcode map: under the row's mask, which holds every must-be-zero bit, it
is the row's value (30_encoding.md R62, R64). -/
def EncodesItsRow.Statement (i : Instr) : Prop := (encode i) &&& (rowOf i).mask = (rowOf i).value

theorem EncodesItsRow.cfgdir (pin : Byte) (v : Level) : EncodesItsRow.Statement (.cfgdir pin v) := by
  refine (and_mask_eq_iff _ rowCfgdir.mask rowCfgdir.value).mpr fun j => ?_
  simp only [encode, layout_getLsbD]
  fin_cases j <;> simp [rowCfgdir]

theorem EncodesItsRow.pinwr (pin : Byte) (v : Level) : EncodesItsRow.Statement (.pinwr pin v) := by
  refine (and_mask_eq_iff _ rowPinwr.mask rowPinwr.value).mpr fun j => ?_
  simp only [encode, layout_getLsbD]
  fin_cases j <;> simp [rowPinwr]

theorem EncodesItsRow.pinrd (pin : Byte) : EncodesItsRow.Statement (.pinrd pin) := by
  refine (and_mask_eq_iff _ rowPinrd.mask rowPinrd.value).mpr fun j => ?_
  simp only [encode, layout_getLsbD]
  fin_cases j <;> simp [rowPinrd]

theorem EncodesItsRow.abspos (r p : Byte) : EncodesItsRow.Statement (.abspos r p) := by
  refine (and_mask_eq_iff _ rowAbspos.mask rowAbspos.value).mpr fun j => ?_
  simp only [encode, layout_getLsbD]
  fin_cases j <;> simp [rowAbspos]

theorem EncodesItsRow.regwr (r p : Byte) (v : Level) : EncodesItsRow.Statement (.regwr r p v) := by
  refine (and_mask_eq_iff _ rowRegwr.mask rowRegwr.value).mpr fun j => ?_
  simp only [encode, layout_getLsbD]
  fin_cases j <;> simp [rowRegwr]

theorem EncodesItsRow.initch (r : Byte) : EncodesItsRow.Statement (.initch r) := by
  refine (and_mask_eq_iff _ rowInitch.mask rowInitch.value).mpr fun j => ?_
  simp only [encode, layout_getLsbD]
  fin_cases j <;> simp [rowInitch]

theorem EncodesItsRow.shout : EncodesItsRow.Statement .shout := by
  show encode .shout &&& rowShout.mask = rowShout.value
  decide

end Sys2Proof.Laws
end

