-- ==== Sys2Proof/Tests/Slice0.lean ====
section
/-! SUPPORT. The model's own tests: the checks of WellFormed, words written out bit by bit from 30_encoding.md, vectors of
95_test_vectors.md, and for every statement with hypotheses a state and operands that meet them. -/

namespace Sys2Proof.Tests

open Sys2Proof.Machine

/-! ### Helpers -/

/-- The example wiring of 95_test_vectors.md: DS 7, SHCP 8, STCP 12. -/
def conf (m : Nat) (pad : Bool) (mExt : Nat) : Config := ⟨m, 7, 8, 12, pad, 1, mExt⟩

/-- An idle SRSER whose control pins are outputs, at level 0; the environment holds the pad of pin 13 high. -/
def start (c : Config) (inputs : List Input) : State where
  cfg := c
  ports := ⟨0x80, 0x00, 0x11, 0x00, 0x00, 0x20⟩
  buf := List.replicate c.nbits false
  seq := Seq.reset
  rsp := none
  inputs := inputs
  draws := 0
  trace := []
  chain := ⟨List.replicate c.stages false, List.replicate c.stages false, 0⟩

/-- The same with every port register 0, as after reset. -/
def fresh (inputs : List Input) : State :=
  { start (conf 1 false 1) inputs with ports := ⟨0x00, 0x00, 0x00, 0x00, 0x00, 0x20⟩ }

/-- One register, with the sequencer where it is wanted. -/
def midway (pad : Bool) (q : Seq) (inputs : List Input) : State := { start (conf 1 pad 1) inputs with seq := q }

/-- Two registers, in the middle of a command, and then a reset and the boot words of 70_reset_and_hazards.md R143. -/
def midwayOfTwo : State :=
  { start (conf 2 true 2) [.reset, .offer 0x100C0001, .offer 0x10080001, .offer 0x10070001, .offer 0x60010000,
      .offer 0x60020000] with
    seq := ⟨.clkHi, 5, false, 0, 0⟩ }

/-- The state a step goes to, if it goes to one. -/
def after (o : Host.Outcome State Fault Refusal) : Option State :=
  match o with
  | .next t => some t
  | _ => none

/-- The response word and the four port registers after one step. -/
def portsAfter (s : State) : Option (Option Word × Byte × Byte × Byte × Byte) :=
  (after (step s)).map fun t => (rspPort t, t.ports.dira, t.ports.outa, t.ports.dirb, t.ports.outb)

/-! ### WellFormed: each check refuses an ill-formed term -/

theorem test_wf_sample_ranges : (conf 1 false 1).wf = true ∧ (conf 255 true 1).wf = true := by decide
theorem test_wf_no_register : (conf 0 false 1).wf = false := by decide
theorem test_wf_too_many_registers : (conf 256 false 1).wf = false := by decide
theorem test_wf_no_cycle : ({ conf 1 false 1 with tStep := 0 } : Config).wf = false := by decide
theorem test_wf_no_external_register : (conf 1 false 0).wf = false := by decide
theorem test_wf_pins : (conf 1 false 1).wfPins = true := by decide
theorem test_wf_pins_invalid :
    ({ conf 1 false 1 with pinDs := 1 } : Config).wfPins = false ∧
    ({ conf 1 false 1 with pinShcp := 14 } : Config).wfPins = false ∧
    ({ conf 1 false 1 with pinStcp := 13 } : Config).wfPins = false := by decide
theorem test_wf_pins_shared :
    ({ conf 1 false 1 with pinDs := 8 } : Config).wfPins = false ∧
    ({ conf 1 false 1 with pinDs := 12 } : Config).wfPins = false ∧
    ({ conf 1 false 1 with pinShcp := 12 } : Config).wfPins = false := by decide

/-! ### Decode and encode: words written out from the patterns of 30_encoding.md R62 -/

theorem test_decode_cfgdir : decode 0b0001_0000_00001001_00000000_00000001 = .ok (.cfgdir 9 true) := by rfl
theorem test_decode_pinwr : decode 0b0010_0000_00000101_00000000_00000001 = .ok (.pinwr 5 true) := by rfl
theorem test_decode_pinrd : decode 0b0011_0000_00001101_00000000_00000000 = .ok (.pinrd 13) := by rfl
theorem test_decode_abspos : decode 0b0100_0000_00000010_00000111_00000000 = .ok (.abspos 2 7) := by rfl
theorem test_decode_regwr : decode 0b0101_0000_00000001_00000011_00000001 = .ok (.regwr 1 3 true) := by rfl
theorem test_decode_initch : decode 0b0110_0000_00000010_00000000_00000000 = .ok (.initch 2) := by rfl
theorem test_decode_shout : decode 0b0111_0000_00000000_00000000_00000000 = .ok .shout := by rfl

/-- Table T0b of 95_test_vectors.md: every one of its words is illegal. -/
theorem test_decode_illegal :
    ([0x00000000, 0xFFFFFFFF, 0x80000000, 0xF0000000, 0x10090003, 0x11090001, 0x10090101, 0x300D0001, 0x40020701,
      0x50010303, 0x60020100, 0x70000001, 0x70010000].map fun w => (decode w).toOption) =
      List.replicate 13 none := by decide

/-- Table T0a: the words of these commands. -/
theorem test_encode :
    [encode (.cfgdir 9 false), encode (.pinwr 255 true), encode (.pinrd 13), encode (.abspos 2 7),
      encode (.regwr 0 255 true), encode (.initch 2), encode .shout] =
    [0x10090000, 0x20FF0001, 0x300D0000, 0x40020700, 0x5000FF01, 0x60020000, 0x70000000] := by decide

/-- Lines of the programs P1 and P3 of 95_test_vectors.md. -/
theorem test_assemble :
    assemble "OUTPUT" [12] = some 0x100C0001 ∧ assemble "PINLO" [5] = some 0x20050000 ∧
    assemble "CLRBIT" [1, 255] = some 0x5001FF00 ∧ assemble "CFGDIR" [256, 1] = none ∧
    assemble "REGWR" [1, 3, 2] = none ∧ assemble ".word" [0x70010000] = some 0x70010000 := by decide

/-- Lines of text in the syntax of 30_encoding.md R69. -/
theorem test_assemble_line :
    assembleLine "REGWR 1, 3, 1  ; set bit 3".toList = some 0x50010301 ∧ assembleLine "SHOUT".toList = some 0x70000000 ∧
    assembleLine "PINRD 0x0D".toList = some 0x300D0000 ∧ assembleLine "PINRD 0x".toList = none ∧
    assembleLine ".word 0x80000000".toList = some 0x80000000 ∧ assembleLine "NOP".toList = none := by decide

/-! ### One step of each command (40_port_group.md, 41_shift_chain.md, 95_test_vectors.md) -/

/-- R80: `CFGDIR 9, 1` from reset gives `DIRB = 0x02`. -/
theorem test_cfgdir_group_b :
    portsAfter (fresh [.offer 0x10090001]) = some (some 0x00000000, 0x00, 0x00, 0x02, 0x00) := by decide

/-- T1, row 13: pin 13 cannot be made an output. -/
theorem test_cfgdir_read_only_pin :
    portsAfter (fresh [.offer 0x100D0001]) = some (some 0x10000000, 0x00, 0x00, 0x00, 0x00) := by decide

/-- R81: `PINWR 9, 1` with `OUTA = 0x20` gives `OUTB = 0x02` and leaves `OUTA`. -/
theorem test_pinwr_group_b :
    portsAfter { fresh [.offer 0x20090001] with ports := ⟨0x00, 0x20, 0x00, 0x00, 0x00, 0x20⟩ } =
      some (some 0x00000000, 0x00, 0x20, 0x00, 0x02) := by decide

/-- Program P5, line `PINHI 8`: a rising edge of the clock line takes the data line's 1 into stage 0 of the chain; the output
stage does not move. -/
theorem test_pinwr_clock_edge :
    (after (step
      { start (conf 1 false 1) [.offer 0x20080001] with
        ports := ⟨0x80, 0x80, 0x11, 0x10, 0x00, 0x00⟩
        chain := ⟨[true, false, false, false, false, false, false, false],
          [true, false, false, false, false, false, false, false], 0⟩ })).map (fun t => (t.chain.sh, t.chain.q)) =
      some ([true, true, false, false, false, false, false, false],
        [true, false, false, false, false, false, false, false]) := by decide

/-- R82: `PINRD 13` with pad B5 high answers 1; `PINRD 14` answers 0x10000000. -/
theorem test_pinrd_level :
    (portsAfter (fresh [.offer 0x300D0000])).map (·.1) = some (some 0x00000001) ∧
    (portsAfter (fresh [.offer 0x300E0000])).map (·.1) = some (some 0x10000000) := by decide

/-- R91: with `M = 2`, `ABSPOS 2, 7` answers 15 and `ABSPOS 2, 8` faults. -/
theorem test_abspos :
    (portsAfter (start (conf 2 false 2) [.offer 0x40020700])).map (·.1) = some (some 0x0000000F) ∧
    (portsAfter (start (conf 2 false 2) [.offer 0x40020800])).map (·.1) = some (some 0x20000000) := by decide

/-- T4, step 1 of its table: `REGWR 1, 3, 1` sets `BUF[3]` and starts the sequencer. -/
theorem test_regwr_accepted :
    (after (step (start (conf 1 false 1) [.offer 0x50010301]))).map (fun t => (t.buf, t.seq.phase, rspPort t)) =
      some ([false, false, false, true, false, false, false, false], .latchLo, none) := by decide

/-- T11: `r = 3 > M` and `p = 255 > 7` give one INDEX_RANGE, and no event. -/
theorem test_regwr_out_of_range :
    (after (step (start (conf 2 false 2) [.offer 0x5003FF01]))).map
      (fun t => (rspPort t, t.seq.phase, t.trace, t.buf)) =
      some (some 0x20000000, .idle, [], List.replicate 16 false) := by decide

/-- T9, the first cleared position: `INITCH 1` on `[1,0,1,0,0,1,0,1]`. -/
theorem test_initch_accepted :
    (after (step { start (conf 1 false 1) [.offer 0x60010000] with
        buf := [true, false, true, false, false, true, false, true] })).map
      (fun t => (t.buf, t.seq.iact, t.seq.ireg, t.seq.ipos)) =
      some ([false, false, true, false, false, true, false, true], true, 1, 0) := by decide

/-- T9, the second cleared bit position that matters: after the second ShiftOut, position 2. -/
theorem test_initch_next_position :
    (after (step { midway false ⟨.latchHi, 0, true, 1, 1⟩ [] with
        buf := [false, false, true, false, false, true, false, true] })).map
      (fun t => (t.buf, t.seq.phase, t.seq.ipos, rspPort t)) =
      some ([false, false, false, false, false, true, false, true], .latchLo, 2, none) := by decide

/-- T4, step 2 of its table: latch low, counter at 7; with `PAD = 1` at 8. -/
theorem test_shout_first_event :
    (after (step (midway false ⟨.latchLo, 0, false, 0, 0⟩ []))).map (fun t => (t.trace, t.seq)) =
      some ([.wr 12 false], ⟨.clkLo, 7, false, 0, 0⟩) ∧
    (after (step (midway true ⟨.latchLo, 0, false, 0, 0⟩ []))).map (fun t => t.seq.idx) = some 8 := by decide

/-- T4, step 27 of its table: latch high, response, and the outputs take the shift stage. -/
theorem test_shout_last_event :
    (after (step { midway false ⟨.latchHi, 0, false, 0, 0⟩ [] with
        chain := ⟨[false, false, false, true, false, false, false, false], List.replicate 8 false, 0⟩ })).map
      (fun t => (t.trace, t.seq.phase, rspPort t, imageByte t.chain.q 1)) =
      some ([.wr 12 true], .idle, some 0x00000000, 0b00001000) := by decide

/-! ### Witnesses: for every statement with hypotheses, a case that meets them, and one for each clause at its boundary -/

theorem witness_LegalWordIsTheEncodingOfItsCommand : decode 0x50010301 = .ok (.regwr 1 3 true) := by rfl

theorem witness_WordIsTheCommandExactlyWhenItsRowMatches :
    rowCfgdir ∈ opTable ∧ (0x10090001 : Word) &&& rowCfgdir.mask = rowCfgdir.value ∧
    rowShout ∈ opTable ∧ (0x70000000 : Word) &&& rowShout.mask = rowShout.value := by decide

/-- A legal word of the lowest and of the highest opcode; an illegal word for each field that must be 0. -/
theorem witness_WordIsLegalExactlyWhenItsUnusedFieldsAreZero :
    (decode 0x10FF0001).toOption = some (.cfgdir 255 true) ∧ (decode 0x70000000).toOption = some .shout ∧
    (decode 0x0FFFFFFF).toOption = none ∧ (decode 0x80000000).toOption = none ∧
    (decode 0x21050001).toOption = none ∧ (decode 0x20050003).toOption = none ∧
    (decode 0x20050101).toOption = none ∧ (decode 0x30050001).toOption = none ∧
    (decode 0x70010000).toOption = none := by decide

/-- Every format at the ends of its fields. -/
theorem witness_OperandsAreTheirFieldsUnscaled :
    decode 0x10FF0000 = .ok (.cfgdir 255 false) ∧ decode 0x20000001 = .ok (.pinwr 0 true) ∧
    decode 0x30FF0000 = .ok (.pinrd 255) ∧ decode 0x40FF0000 = .ok (.abspos 255 0) ∧
    decode 0x5000FF01 = .ok (.regwr 0 255 true) ∧ decode 0x60FF0000 = .ok (.initch 255) ∧
    decode 0x70000000 = .ok .shout := ⟨rfl, rfl, rfl, rfl, rfl, rfl, rfl⟩

/-- The ends of both operands' ranges, with the words of 30_encoding.md R62 for CFGDIR and REGWR; the first operands that do not
fit give no word. -/
theorem witness_PseudoInstructionsAssembleToOneCommand :
    (0 < 256 ∧ 255 < 256 ∧ ¬256 < 256) ∧
    assemble "OUTPUT" [0] = some 0x10000001 ∧ assemble "INPUT" [255] = some 0x10FF0000 ∧
    assemble "PINHI" [255] = some 0x20FF0001 ∧ assemble "PINLO" [0] = some 0x20000000 ∧
    assemble "SETBIT" [255, 0] = some 0x50FF0001 ∧ assemble "CLRBIT" [0, 255] = some 0x5000FF00 ∧
    assemble "OUTPUT" [256] = none ∧ assemble "SETBIT" [256, 0] = none := by decide

theorem witness_IdleStepRunsTheDecodedCommand :
    busy (fresh [.offer 0x10090001]) = false ∧ (fresh [.offer 0x10090001]).inputs = .offer 0x10090001 :: [] ∧
    decode 0x10090001 = .ok (.cfgdir 9 true) := ⟨rfl, rfl, rfl⟩

theorem witness_IllegalWordOnlyGivesItsResponse :
    busy (fresh [.offer 0x11090001]) = false ∧ (fresh [.offer 0x11090001]).inputs = .offer 0x11090001 :: [] ∧
    decode 0x11090001 = .error .mustBeZero := ⟨rfl, rfl, rfl⟩

theorem witness_OfferedWordWaitsWhileBusy :
    busy (midway false ⟨.clkLo, 7, false, 0, 0⟩ [.offer 0x70000000]) = true ∧
    (midway false ⟨.clkLo, 7, false, 0, 0⟩ [.offer 0x70000000]).inputs = .offer 0x70000000 :: [] ∧
    ∃ t, step (midway false ⟨.clkLo, 7, false, 0, 0⟩ [.offer 0x70000000]) = .next t := ⟨rfl, rfl, _, rfl⟩

/-- In the middle of a command, as in idle. -/
theorem witness_ResetGivesEveryRegisterItsResetValue :
    (midway true ⟨.data, 8, true, 1, 5⟩ [.reset]).inputs = .reset :: [] ∧
    (fresh [.reset, .offer 0x70000000]).inputs = .reset :: [.offer 0x70000000] := ⟨rfl, rfl⟩

/-- With `WF_CHAIN` and without. -/
theorem witness_QuiescentStepChangesNothing :
    busy (start (conf 1 true 1) []) = false ∧ (start (conf 1 true 1) []).inputs = [] ∧
    wfChain (start (conf 1 true 1) []) = true ∧ busy (fresh []) = false ∧ wfChain (fresh []) = false := by decide

theorem witness_PadMoveChangesOnlyThePadLevels :
    (start (conf 1 true 1) [.pads 0xFF 0x00]).inputs = .pads 0xFF 0x00 :: [] ∧
    wfChain (start (conf 1 true 1) [.pads 0xFF 0x00]) = true := by decide

/-- The pins where the clauses of CFGDIR and PINWR meet: each range's ends, and their neighbours. -/
theorem witness_CfgdirWritesOneDirectionBit :
    ([1, 2, 7, 8, 12, 13].map fun pin =>
      (after (exec (.cfgdir pin true) (fresh []))).map fun t => (rspPort t, t.ports.dira, t.ports.dirb)) =
    [some (some 0x10000000, 0x00, 0x00), some (some 0x00000000, 0x04, 0x00), some (some 0x00000000, 0x80, 0x00),
      some (some 0x00000000, 0x00, 0x01), some (some 0x00000000, 0x00, 0x10), some (some 0x10000000, 0x00, 0x00)] := by
  decide

theorem witness_PinwrWritesOneOutputBit :
    ([1, 2, 7, 8, 12, 13].map fun pin =>
      (after (exec (.pinwr pin true) (fresh []))).map fun t => (rspPort t, t.ports.outa, t.ports.outb)) =
    [some (some 0x10000000, 0x00, 0x00), some (some 0x00000000, 0x04, 0x00), some (some 0x00000000, 0x80, 0x00),
      some (some 0x00000000, 0x00, 0x01), some (some 0x00000000, 0x00, 0x10), some (some 0x10000000, 0x00, 0x00)] := by
  decide

/-- The ends of the ranges for reads, with the pads of pins 2 and 13 high and the others low; pins 7 and 8 are also read as
outputs, each a draw. -/
theorem witness_PinrdReturnsTheSensedLevel :
    ([1, 2, 7, 8, 13, 14].map fun pin =>
      (after (exec (.pinrd pin) { fresh [] with ports := ⟨0, 0, 0, 0, 0x04, 0x20⟩ })).map fun t => (rspPort t, t.draws)) =
    [some (some 0x10000000, 0), some (some 0x00000001, 0), some (some 0x00000000, 0), some (some 0x00000000, 0),
      some (some 0x00000001, 0), some (some 0x10000000, 0)] ∧
    ([7, 8].map fun pin => (after (exec (.pinrd pin) (start (conf 1 false 1) []))).map (·.draws)) = [some 1, some 1] := by
  decide

theorem witness_OnePinNeverPerturbsAnother :
    (5 : Byte) ≠ 9 ∧ (∃ t, exec (.pinwr 5 true) (fresh []) = .next t) ∧
    (∃ t, exec (.cfgdir 5 true) (fresh []) = .next t) ∧ decodeW 9 = some (.b, 1) :=
  ⟨by decide, ⟨_, rfl⟩, ⟨_, rfl⟩, by decide⟩

/-- `WF_CHAIN` after a write of the clock pin; a buffer index and its neighbour. -/
theorem witness_PortWritesAreIdempotentOnTheRegisters :
    wfChain (pinWrite 8 true (start (conf 1 false 1) [])).2 = true ∧
    (bufWrite 7 true (start (conf 1 false 1) [])).buf[7]? = some true ∧
    (bufWrite 7 true (start (conf 1 false 1) [])).buf[6]? = some false := by decide

theorem witness_PadIsDrivenExactlyWhenThePinIsAnOutput :
    decodeW 2 = some (.a, 2) ∧ decodeW 7 = some (.a, 7) ∧ decodeW 8 = some (.b, 0) ∧ decodeW 12 = some (.b, 4) := by
  decide

/-- A case for each clause: CFGDIR and PINWR on a pin of each group and on an invalid one, another command, no word, and each
phase of the sequencer, `DATA` with the pad pulse and with a bit of the buffer. -/
theorem witness_EveryMicroStepWritesAtMostOnePortBit :
    ∀ s ∈ [fresh [.offer 0x10020001], fresh [.offer 0x100C0001], fresh [.offer 0x100D0001],
        fresh [.offer 0x20070001], fresh [.offer 0x20080001], fresh [.offer 0x20010001],
        fresh [.offer 0x70000000], fresh [.offer 0x80000000], fresh [.idle], fresh [],
        midway true ⟨.latchLo, 0, false, 0, 0⟩ [], midway true ⟨.clkLo, 8, false, 0, 0⟩ [.offer 0x10020001],
        midway true ⟨.data, 8, false, 0, 0⟩ [], midway true ⟨.data, 7, false, 0, 0⟩ [.idle],
        midway true ⟨.clkHi, 0, false, 0, 0⟩ [], midway true ⟨.latchHi, 0, true, 1, 6⟩ []],
      (∃ t, step s = .next t) ∧ (∀ rest, s.inputs ≠ .reset :: rest) ∧ ∀ a b rest, s.inputs ≠ .pads a b :: rest := by
  simp only [List.forall_mem_cons]
  refine ⟨?_, ?_, ?_, ?_, ?_, ?_, ?_, ?_, ?_, ?_, ?_, ?_, ?_, ?_, ?_, ?_, by simp⟩ <;>
    exact ⟨⟨_, rfl⟩, by simp [fresh, midway, start], by simp [fresh, midway, start]⟩

/-- The ends of both ranges with `M = 2`: the first and the last position, and the pairs just outside. -/
theorem witness_AbsposAnswersThePosition :
    ([(1, 0), (2, 7), (0, 0), (3, 0), (1, 8)].map fun rp =>
      (after (exec (.abspos rp.1 rp.2) (start (conf 2 false 2) []))).map rspPort) =
    [some (some 0x00000000), some (some 0x0000000F), some (some 0x20000000), some (some 0x20000000),
      some (some 0x20000000)] := by decide

theorem witness_PositionsAreABijectionOntoTheBuffer :
    (conf 255 false 255).wf = true ∧ indexCheck (conf 255 false 255) 255 7 = true ∧ absPos 255 7 = 2039 ∧
    indexCheck (conf 255 false 255) 1 0 = true ∧ absPos 1 0 = 0 ∧ 2039 < 8 * (conf 255 false 255).m := by decide

/-- Each way an index is out of range; a fault answered, by a command and by a step; a step of an idle SRSER that still shows
one. -/
theorem witness_IndexFaultHasNoEffectButItsResponse :
    ((0 : Byte).toNat = 0 ∧ (conf 1 false 1).m < (2 : Byte).toNat ∧ 7 < (8 : Byte).toNat) ∧
    (after (exec (.initch 2) (fresh []))).map (·.rsp) = some (some .indexRange) ∧
    (after (step (fresh [.offer 0x60020000]))).map (·.rsp) = some (some .indexRange) ∧
    (after (step { fresh [] with rsp := some .indexRange })).map (·.rsp) = some (some .indexRange) := by decide

/-- The last register and position, and the first ones. -/
theorem witness_ChainCommandsStartTheSequencer :
    (1 ≤ (2 : Byte).toNat ∧ (2 : Byte).toNat ≤ (start (conf 2 false 2) []).cfg.m ∧ (7 : Byte).toNat ≤ 7) ∧
    (1 ≤ (1 : Byte).toNat ∧ (1 : Byte).toNat ≤ (start (conf 2 false 2) []).cfg.m ∧ (0 : Byte).toNat ≤ 7) := by decide

/-- A state in every row of the table: both of `DATA`, of `CLK_HI` and of `LATCH_HI`. -/
theorem witness_SequencerRowsAreThoseOfTheTable :
    ∀ s ∈ [midway true ⟨.latchLo, 0, false, 0, 0⟩ [], midway true ⟨.clkLo, 8, false, 0, 0⟩ [],
        midway true ⟨.data, 8, false, 0, 0⟩ [], midway true ⟨.data, 7, false, 0, 0⟩ [],
        midway false ⟨.clkHi, 1, false, 0, 0⟩ [], midway false ⟨.clkHi, 0, false, 0, 0⟩ [],
        midway false ⟨.latchHi, 0, true, 1, 6⟩ [], midway false ⟨.latchHi, 0, true, 1, 7⟩ [],
        midway false ⟨.latchHi, 0, false, 0, 0⟩ []],
      s.Inv ∧ busy s = true ∧ s.inputs = [] := by
  unfold State.Inv
  decide

/-- In IDLE, and in the middle of a command with a word to come after. -/
theorem witness_IdleMoveIsOneMicroStep :
    (fresh [.idle]).inputs = .idle :: [] ∧ (∃ t, step { fresh [.idle] with inputs := [] } = .next t) ∧
    (midway true ⟨.data, 8, true, 1, 5⟩ [.idle, .offer 0x70000000]).inputs = .idle :: [.offer 0x70000000] ∧
    ∃ t, step { midway true ⟨.data, 8, true, 1, 5⟩ [.idle, .offer 0x70000000] with inputs := [] } = .next t :=
  ⟨rfl, ⟨_, rfl⟩, rfl, ⟨_, rfl⟩⟩

theorem witness_SequencerRunsShoutAsItsBigStep :
    (conf 1 true 1).wf = true ∧ (start (conf 1 true 1) []).buf.length = (conf 1 true 1).nbits ∧
    offersOnly .shout (start (conf 1 true 1) [.offer 0x70000000]) := ⟨by decide, by decide, rfl, rfl⟩

theorem witness_SequencerRunsRegwrAsItsBigStep :
    (conf 2 true 2).wf = true ∧ (start (conf 2 true 2) []).buf.length = (conf 2 true 2).nbits ∧
    1 ≤ (2 : Byte).toNat ∧ (2 : Byte).toNat ≤ (conf 2 true 2).m ∧ (7 : Byte).toNat ≤ 7 ∧
    offersOnly (.regwr 2 7 true) (start (conf 2 true 2) [.offer 0x50020701]) :=
  ⟨by decide, by decide, by decide, by decide, by decide, rfl, rfl⟩

theorem witness_SequencerRunsInitchAsItsBigStep :
    (conf 2 false 2).wf = true ∧ (start (conf 2 false 2) []).buf.length = (conf 2 false 2).nbits ∧
    1 ≤ (2 : Byte).toNat ∧ (2 : Byte).toNat ≤ (conf 2 false 2).m ∧
    offersOnly (.initch 2) (start (conf 2 false 2) [.offer 0x60020000]) :=
  ⟨by decide, by decide, by decide, by decide, rfl, rfl⟩

theorem witness_ShiftOutIssuesTheWholeBufferInOrder :
    (start (conf 1 true 1) []).buf.length = (conf 1 true 1).nbits ∧
    (start (conf 1 false 1) []).buf.length = (conf 1 false 1).nbits := by decide

/-- A pin for each clause: the latch pin, the data pin, another pin; a bit that no pin reaches. -/
theorem witness_ShiftOutLeavesTheControlBits :
    (conf 1 false 1).wf = true ∧ (start (conf 1 false 1) []).buf.length = (conf 1 false 1).nbits ∧
    decodeW 12 = some (.b, 4) ∧ decodeW 7 = some (.a, 7) ∧ decodeW 5 = some (.a, 5) ∧
    ∀ pin : Byte, decodeW pin ≠ some (.a, 0) := by decide

/-- A chain command, and a state to count its steps from. -/
theorem witness_EveryCommandIsAnsweredAfterItsMicroSteps :
    (start (conf 1 true 1) [.offer 0x70000000]).Inv ∧
    offersOnly .shout (start (conf 1 true 1) [.offer 0x70000000]) ∧ 0 < 29 ∧ 29 < microSteps (conf 1 true 1) .shout :=
  ⟨⟨by decide, by decide, by decide, by decide, by decide⟩, ⟨rfl, rfl⟩, by decide, by decide⟩

theorem witness_RegwrSetsExactlyOneBufferBit :
    (start (conf 1 true 1) [.offer 0x50010701]).Inv ∧
    offersOnly (.regwr 1 7 true) (start (conf 1 true 1) [.offer 0x50010701]) ∧
    1 ≤ (1 : Byte).toNat ∧ (1 : Byte).toNat ≤ (conf 1 true 1).m ∧ (7 : Byte).toNat ≤ 7 ∧
    decodeW 5 = some (.a, 5) ∧ (5 : Byte) ≠ 12 ∧ (5 : Byte) ≠ 8 ∧ (5 : Byte) ≠ 7 :=
  ⟨⟨by decide, by decide, by decide, by decide, by decide⟩, ⟨rfl, rfl⟩, by decide⟩

theorem witness_InitchClearsExactlyOneRegister :
    (start (conf 2 true 2) [.offer 0x60020000]).Inv ∧
    offersOnly (.initch 2) (start (conf 2 true 2) [.offer 0x60020000]) ∧
    1 ≤ (2 : Byte).toNat ∧ (2 : Byte).toNat ≤ (conf 2 true 2).m :=
  ⟨⟨by decide, by decide, by decide, by decide, by decide⟩, ⟨rfl, rfl⟩, by decide⟩

/-- The lines of the clock and of the latch before and after a step: a rising edge of the one, of the other, of none. -/
theorem witness_ChainMovesOnlyOnRisingEdges :
    ∀ e ∈ [(midway false ⟨.clkHi, 0, false, 0, 0⟩ [], some true, some false),
        (midway false ⟨.latchHi, 0, false, 0, 0⟩ [], some false, some true),
        (midway false ⟨.clkLo, 0, false, 0, 0⟩ [], some false, some false)],
      e.1.cfg.wf = true ∧ chainWf e.1 = true ∧ wfChain e.1 = true ∧
      lineDrive e.1.cfg.pinShcp e.1.ports = some false ∧ lineDrive e.1.cfg.pinStcp e.1.ports = some false ∧
      (after (step e.1)).map wfChain = some true ∧
      (after (step e.1)).map (fun t => (lineDrive t.cfg.pinShcp t.ports, lineDrive t.cfg.pinStcp t.ports)) =
        some e.2 := by decide

/-- A chain longer than the buffer, with a pad pulse: a stage in each of the three ranges. -/
theorem witness_ShiftOutLoadsTheExternalChain :
    (conf 1 true 2).wf = true ∧ (start (conf 1 true 2) []).buf.length = (conf 1 true 2).nbits ∧
    chainWf (start (conf 1 true 2) []) = true ∧ wfChain (start (conf 1 true 2) []) = true ∧
    7 < 8 * (conf 1 true 2).m ∧ ¬8 < 8 * (conf 1 true 2).m ∧
    8 < 8 * (conf 1 true 2).m + (conf 1 true 2).pad.toNat ∧ 9 < (conf 1 true 2).stages := by decide

theorem witness_OutputsShowTheBufferAfterEveryChainCommand :
    (start (conf 2 true 2) [.offer 0x60020000]).Inv ∧ wfChain (start (conf 2 true 2) [.offer 0x60020000]) = true ∧
    (conf 2 true 2).m ≤ (conf 2 true 2).mExt ∧
    offersOnly (.initch 2) (start (conf 2 true 2) [.offer 0x60020000]) ∧ 1 < microSteps (conf 2 true 2) (.initch 2) :=
  ⟨⟨by decide, by decide, by decide, by decide, by decide⟩, by decide, by decide, ⟨rfl, rfl⟩, by decide⟩

/-- A state with the moves the statement asks for: the words of the reset-and-boot moves with `M = 2`, in the middle of a
command. -/
theorem witness_BootClearsTheOutputs :
    (midwayOfTwo.cfg.wf = true ∧ midwayOfTwo.cfg.wfPins = true) ∧
    midwayOfTwo.inputs = .reset :: (bootCommands midwayOfTwo.cfg).map (fun i => .offer (encode i)) := by
  decide

theorem test_boot_commands :
    bootCommands (conf 2 true 2) = [.cfgdir 12 true, .cfgdir 8 true, .cfgdir 7 true, .initch 1, .initch 2] := by decide

theorem witness_InvariantHoldsAfterReset : (conf 255 true 1).wf = true := by decide

theorem witness_EveryStepCompletesAndKeepsTheInvariant :
    (midway true ⟨.data, 8, false, 0, 0⟩ []).Inv :=
  ⟨by decide, by decide, by decide, by decide, by decide⟩

theorem witness_NoStepChangesTheConfiguration : ∃ t, step (fresh [.reset]) = .next t := ⟨_, rfl⟩

/-- The buffer changes by a REGWR, by an INITCH, inside an INITCH, and by a reset. -/
theorem witness_OnlyRegwrInitchAndResetChangeTheBuffer :
    ∀ s ∈ [{ start (conf 1 false 1) [.offer 0x50010000] with buf := List.replicate 8 true },
        { start (conf 1 false 1) [.offer 0x60010000] with buf := List.replicate 8 true },
        { midway false ⟨.latchHi, 0, true, 1, 6⟩ [] with buf := List.replicate 8 true },
        { start (conf 1 false 1) [.reset] with buf := List.replicate 8 true }],
      ((after (step s)).map fun t => decide (t.buf ≠ s.buf)) = some true := by decide

/-- A direction changes by a CFGDIR of either group, and by a reset. -/
theorem witness_OnlyCfgdirAndResetChangeADirection :
    ∀ s ∈ [fresh [.offer 0x10020001], fresh [.offer 0x100C0001], start (conf 1 false 1) [.reset]],
      ((after (step s)).map fun t => decide (t.ports.dira ≠ s.ports.dira ∨ t.ports.dirb ≠ s.ports.dirb)) =
        some true := by decide

/-- A step with no event, and one with an event. -/
theorem witness_EveryStepAppendsAtMostOneEvent :
    (after (step (fresh [.offer 0x40010000]))).map (·.trace) = some [] ∧
    (after (step (fresh [.offer 0x200E0001]))).map (·.trace) = some [.wr 14 true] := by decide

/-- An idle SRSER and a word for each outcome: illegal though its index is out of range too, an index fault, an ignored pin. -/
theorem witness_OutcomesFollowThePriority :
    ([0x5003FF03, 0x5003FF01, 0x200E0001, 0x300E0000, 0x100D0001, 0x40010000, 0x60000000].map fun w =>
      (busy (fresh [.offer w]), (after (step (fresh [.offer w]))).map rspPort)) =
    [(false, some (some 0x30000000)), (false, some (some 0x20000000)), (false, some (some 0x10000000)),
      (false, some (some 0x10000000)), (false, some (some 0x10000000)), (false, some (some 0x00000000)),
      (false, some (some 0x20000000))] := by decide

theorem witness_SrserDoesNotSeeTheExternalChain : ∃ t, step (start (conf 1 false 1) [.offer 0x70000000]) = .next t :=
  ⟨_, rfl⟩

end Sys2Proof.Tests
end

section
/-! PROOFS, 10_state.md. The parts of the invariant and how the operations on the state keep them. -/

namespace Sys2Proof.Machine

/-! ### The parts of the invariant -/

/-- The ranges of a sequencer position (10_state.md R31): `seqWf` as a statement about the position alone. -/
def Seq.InRange (c : Config) (q : Seq) : Prop :=
  q.idx.toNat ≤ c.nbits ∧ (c.pad = true ∨ q.idx.toNat < c.nbits) ∧
    (q.iact = true → indexCheck c q.ireg 0#8 = true ∧ q.phase ≠ .idle)

theorem seqWf_iff (s : State) : seqWf s = true ↔ s.seq.InRange s.cfg := by
  simp only [seqWf, Seq.InRange, Bool.and_eq_true, Bool.or_eq_true, Bool.not_eq_true', decide_eq_true_eq, busy_iff]
  cases s.seq.iact <;> simp [and_assoc]

theorem rspWf_iff (s : State) : rspWf s = true ↔ (busy s = true → s.rsp = none) := by
  cases h : busy s <;> simp [rspWf, h]

theorem chainWf_iff (s : State) :
    chainWf s = true ↔ s.chain.sh.length = s.cfg.stages ∧ s.chain.q.length = s.cfg.stages := by
  simp only [chainWf, Bool.and_eq_true, decide_eq_true_eq]

theorem Config.wf_iff (c : Config) : c.wf = true ↔ 1 ≤ c.m ∧ c.m ≤ 255 ∧ 1 ≤ c.tStep ∧ 1 ≤ c.mExt := by
  simp only [Config.wf, Bool.and_eq_true, decide_eq_true_eq, and_assoc]

/-- The buffer of a configuration in range is not empty, and its length fits the counter of the sequencer. -/
theorem nbits_range {c : Config} (h : c.wf = true) : 8 ≤ c.nbits ∧ c.nbits ≤ 2040 := by
  obtain ⟨h₁, h₂, -⟩ := (Config.wf_iff c).mp h
  unfold Config.nbits
  omega

theorem State.Inv.cfgWf {s : State} (h : s.Inv) : s.cfg.wf = true := h.1

theorem State.Inv.memoryWf {s : State} (h : s.Inv) : Memory.wf s = true := h.2.1

/-- No command is in progress while a response is pending. -/
theorem State.Inv.rsp_eq_none {s : State} (h : s.Inv) (hb : s.seq.phase ≠ .idle) : s.rsp = none := by
  obtain ⟨-, -, -, hrsp, -⟩ := h
  exact (rspWf_iff s).mp hrsp ((busy_iff s).mpr hb)

theorem State.Inv.seqInRange {s : State} (h : s.Inv) : s.seq.InRange s.cfg := by
  obtain ⟨-, -, hseq, -, -⟩ := h
  exact (seqWf_iff s).mp hseq

theorem State.Inv.buf_length {s : State} (h : s.Inv) : s.buf.length = s.cfg.nbits :=
  ((Memory.wf_iff s).mp h.memoryWf).1

/-- No INITCH is in progress in IDLE. -/
theorem State.Inv.iact_eq_false {s : State} (h : s.Inv) (hp : s.seq.phase = .idle) : s.seq.iact = false := by
  obtain ⟨-, -, hact⟩ := h.seqInRange
  exact Bool.eq_false_iff.mpr fun ha => (hact ha).2 hp

/-! ### Positions in range -/

theorem Seq.reset_inRange {c : Config} (h : c.wf = true) : Seq.reset.InRange c := by
  have := nbits_range h
  exact ⟨Nat.zero_le _, .inr (show 0 < c.nbits by omega), by simp [Seq.reset]⟩

theorem Seq.InRange.withPhase {c : Config} {q : Seq} (h : q.InRange c) {ph : Phase} (hp : ph ≠ .idle) :
    Seq.InRange c { q with phase := ph } := by
  obtain ⟨hidx, hpad, hact⟩ := h
  exact ⟨hidx, hpad, fun ha => (hact ha).imp_right fun _ => hp⟩

theorem Seq.InRange.withoutInitch {c : Config} {q : Seq} (h : q.InRange c) (ph : Phase) :
    Seq.InRange c { q with phase := ph, iact := false } := by
  obtain ⟨hidx, hpad, -⟩ := h
  exact ⟨hidx, hpad, fun ha => by cases ha⟩

/-- The counter the sequencer starts a ShiftOut with (41_shift_chain.md R97, row `LATCH_LO`). -/
theorem firstIdx_toNat {c : Config} (h : c.wf = true) :
    (BitVec.ofNat 11 (c.nbits - 1 + c.pad.toNat)).toNat = c.nbits - 1 + c.pad.toNat := by
  have := nbits_range h
  have := c.pad.toNat_le
  rw [BitVec.toNat_ofNat]
  exact Nat.mod_eq_of_lt (by omega)

theorem Seq.InRange.withFirstIdx {c : Config} {q : Seq} (h : q.InRange c) (hc : c.wf = true) :
    Seq.InRange c { q with idx := BitVec.ofNat 11 (c.nbits - 1 + c.pad.toNat) } := by
  obtain ⟨-, -, hact⟩ := h
  have hn := nbits_range hc
  have hpad := c.pad.toNat_le
  simp only [Seq.InRange, firstIdx_toNat hc]
  refine ⟨by omega, ?_, hact⟩
  cases c.pad with
  | false => exact .inr (by rw [Bool.toNat_false]; omega)
  | true => exact .inl rfl

theorem Seq.InRange.withPredIdx {c : Config} {q : Seq} (h : q.InRange c) (hz : q.idx ≠ 0#11) :
    Seq.InRange c { q with idx := q.idx - 1#11 } := by
  obtain ⟨hidx, hpad, hact⟩ := h
  have hx : (q.idx - 1#11).toNat = q.idx.toNat - 1 := by bv_omega
  simp only [Seq.InRange, hx]
  exact ⟨by omega, hpad.imp_right fun hlt => by omega, hact⟩

/-! ### Each operation keeps the invariant -/

/-- What a move other than one of the chain has to keep: the four other parts of the invariant. -/
theorem State.Inv.of_frame {s t : State} (h : s.Inv) (hcfg : t.cfg = s.cfg) (hchain : t.chain = s.chain)
    (hmem : Memory.wf t = true) (hseq : t.seq.InRange t.cfg) (hrsp : t.seq.phase ≠ .idle → t.rsp = none) :
    t.Inv := by
  obtain ⟨hc, -, -, -, hch⟩ := h
  refine ⟨by rw [hcfg, hc], hmem, (seqWf_iff t).mpr hseq,
    (rspWf_iff t).mpr fun hb => hrsp ((busy_iff t).mp hb), ?_⟩
  rw [chainWf_iff] at hch ⊢
  rw [hcfg, hchain]
  exact hch

theorem State.Inv.pinWrite {s : State} (h : s.Inv) (pin : Byte) (v : Level) : (pinWrite pin v s).2.Inv :=
  h.of_frame (by simp) (by simp) (Memory.wf_pinWrite pin v h.memoryWf) (by simpa using h.seqInRange)
    (by simpa using h.rsp_eq_none)

theorem State.Inv.pinDir {s : State} (h : s.Inv) (pin : Byte) (v : Level) : (pinDir pin v s).2.Inv :=
  h.of_frame (by simp) (by simp) (Memory.wf_pinDir pin v h.memoryWf) (by simpa using h.seqInRange)
    (by simpa using h.rsp_eq_none)

theorem State.Inv.pinRead {s : State} (h : s.Inv) (pin : Byte) : (pinRead pin s).2.Inv := by
  rw [pinRead_frame]
  exact h

theorem State.Inv.bufWrite {s : State} (h : s.Inv) (i : Nat) (v : Level) : (bufWrite i v s).Inv :=
  h.of_frame rfl rfl (Memory.wf_bufWrite i v h.memoryWf) h.seqInRange h.rsp_eq_none

/-- A response may come only when no command is in progress. -/
theorem State.Inv.respond {s : State} (h : s.Inv) (hp : s.seq.phase = .idle) (q : Response) : (respond q s).Inv :=
  h.of_frame rfl rfl h.memoryWf h.seqInRange fun hb => absurd hp hb

theorem State.Inv.withSeq {s : State} (h : s.Inv) {q : Seq} (hq : q.InRange s.cfg)
    (hrsp : q.phase ≠ .idle → s.rsp = none) : (withSeq q s).Inv :=
  h.of_frame rfl rfl h.memoryWf hq hrsp

theorem State.Inv.startShift {s : State} (h : s.Inv) {iact : Bool}
    (ha : iact = true → indexCheck s.cfg s.seq.ireg 0#8 = true) : (startShift iact s).Inv := by
  obtain ⟨hidx, hpad, -⟩ := h.seqInRange
  exact h.of_frame rfl rfl h.memoryWf ⟨hidx, hpad, fun hi => ⟨ha hi, by simp⟩⟩ fun _ => rfl

theorem State.Inv.envPads {s : State} (h : s.Inv) (a b : Byte) : (envPads a b s).Inv :=
  h.of_frame rfl rfl (Memory.wf_envPads a b h.memoryWf) h.seqInRange h.rsp_eq_none

theorem State.Inv.resetState {s : State} (h : s.Inv) : (resetState s).Inv :=
  h.of_frame rfl rfl (Memory.wf_resetState s) (Seq.reset_inRange h.cfgWf) fun _ => rfl

/-- The moves to come are no part of the invariant. -/
theorem State.Inv.withInputs {s : State} (h : s.Inv) (l : List Input) : State.Inv { s with inputs := l } := h

/-! ### The chain keeps its stages -/

theorem ExtChain.clock_sh_length (d : Level) (c : ExtChain) : (c.clock d).sh.length = c.sh.length := by
  simp [ExtChain.clock]

theorem ExtChain.react_length {c : ExtChain} {n : Nat} (hsh : c.sh.length = n) (hq : c.q.length = n)
    (shcpEdge stcpEdge : Bool) (d : Level) :
    (c.react shcpEdge stcpEdge d).sh.length = n ∧ (c.react shcpEdge stcpEdge d).q.length = n := by
  have hclk : (c.clock d).sh.length = n := by rw [ExtChain.clock_sh_length, hsh]
  cases shcpEdge <;> cases stcpEdge
  · exact ⟨hsh, hq⟩
  · exact ⟨hsh, hsh⟩
  · exact ⟨hclk, hq⟩
  · exact ⟨hclk, hclk⟩

theorem chainWf_settle (b : State) {s : State} (h : chainWf s = true) : chainWf (settle b s) = true := by
  rw [chainWf_iff] at h ⊢
  rw [settle_cfg, settle_chain, chainAfter]
  split
  · exact ExtChain.react_length h.1 h.2 ..
  · simp [ExtChain.arbitrary]

theorem State.Inv.settle {s : State} (h : s.Inv) (b : State) : (settle b s).Inv := by
  obtain ⟨hcfg, hmem, hseq, hrsp, hchain⟩ := h
  exact ⟨hcfg, hmem, hseq, hrsp, chainWf_settle b hchain⟩

end Sys2Proof.Machine
end

section
/-! PROOFS, 10_state.md. The invariant after power-on (R36) and after every step (R29, R31). -/

namespace Sys2Proof.Machine

/-! ### Power-on -/

theorem State.Inv.powerOn {c : Config} (h : c.wf = true) : (State.powerOn c).Inv :=
  ⟨h, Memory.wf_powerOn c, (seqWf_iff _).mpr (Seq.reset_inRange h), (rspWf_iff _).mpr fun _ => rfl,
    (chainWf_iff _).mpr (by simp [State.powerOn, ExtChain.arbitrary])⟩

theorem Config.sample_wf : Config.sample.wf = true :=
  (Config.wf_iff _).mpr ⟨by decide, by decide, Nat.le_add_left .., by decide⟩

/-- Settles O41: power-on stores values in range, and the sample configuration is itself in range. -/
theorem invariantHoldsAfterReset : Obligations.InvariantHoldsAfterReset :=
  ⟨fun _ h => State.Inv.powerOn h, State.Inv.powerOn Config.sample_wf⟩

/-- A group whose direction bit is 0 drives nothing and senses the environment (10_state.md R28). -/
theorem padDrive_of_input {p : Ports} {g : Group} {k : Nat} (h : dirBit p g k = false) : padDrive p g k = none := by
  simp [padDrive, h]

theorem memRead_inReg_of_input {s : State} {g : Group} {k : Nat} (h : dirBit s.ports g k = false) :
    memRead g.inReg k s = (envLevel s.ports g k, s) := by
  cases g <;> simp [memRead, Group.inReg, sensed, h]

theorem dirBit_powerOn (c : Config) (g : Group) (k : Nat) : dirBit (State.powerOn c).ports g k = false := by
  cases g <;> simp [State.powerOn, dirBit]

/-- Settles O14: the registers are what `State.powerOn` stores; every pin is an input, so no pad is driven. -/
theorem powerOnGivesEveryRegisterItsResetValue : Obligations.PowerOnGivesEveryRegisterItsResetValue := by
  intro c
  refine ⟨rfl, rfl, rfl, rfl, rfl, rfl, rfl, fun g k => ?_, rfl⟩
  have h := dirBit_powerOn c g k
  exact ⟨padDrive_of_input h, by rw [memRead_inReg_of_input h]⟩

/-! ### One move, before the chain reacts to it -/

/-- The move a step makes, without the external chain's reaction. -/
def move (s : State) : Host.Outcome State Fault Refusal :=
  match s.inputs with
  | [] => seqStep s
  | .idle :: rest => seqStep { s with inputs := rest }
  | .pads a b :: rest => .next (envPads a b { s with inputs := rest })
  | .reset :: rest => .next (resetState { s with inputs := rest })
  | .offer w :: rest => if busy s then seqStep s else accept w { s with inputs := rest }

/-- The reaction of the chain reads of the state before only what the moves to come are no part of. -/
theorem settleOutcome_withInputs (b : State) (l : List Input) (o : Host.Outcome State Fault Refusal) :
    settleOutcome { b with inputs := l } o = settleOutcome b o := by
  cases o <;> rfl

theorem step_eq_settle_move (s : State) : step s = settleOutcome s (move s) := by
  unfold step
  split
  case h_1 hi => simp only [move, hi, tick]
  case h_2 rest hi =>
    simp only [move, hi]
    exact settleOutcome_withInputs s rest _
  case h_3 hi => simp only [move, hi]
  case h_4 hi => simp only [move, hi]
  case h_5 hi =>
    simp only [move, hi]
    split <;> rfl

/-! ### The sequencer keeps the invariant -/

/-- The outcome is a next state, and that state meets the invariant. -/
def AnswersInv (o : Host.Outcome State Fault Refusal) : Prop := ∃ t, o = .next t ∧ t.Inv

theorem AnswersInv.next {t : State} (h : t.Inv) : AnswersInv (.next t) := ⟨t, rfl, h⟩

theorem AnswersInv.settle {o : Host.Outcome State Fault Refusal} (h : AnswersInv o) (b : State) :
    AnswersInv (settleOutcome b o) := by
  obtain ⟨t, rfl, ht⟩ := h
  exact .next (ht.settle b)

/-- A row of the table that writes one pin and goes on to the position `q`, with no response yet. -/
theorem State.Inv.pinWrite_withSeq {s : State} (h : s.Inv) (pin : Byte) (v : Level) {q : Seq} (hq : q.InRange s.cfg)
    (hb : s.seq.phase ≠ .idle) : (Machine.withSeq q (Machine.pinWrite pin v s).2).Inv :=
  (h.pinWrite pin v).withSeq (by simpa using hq) fun _ => by simpa using h.rsp_eq_none hb

theorem toPhase_eq_withSeq (ph : Phase) (s : State) : toPhase ph s = withSeq { s.seq with phase := ph } s := rfl

theorem seqStep_latchLo_inv {s : State} (h : s.Inv) (hp : s.seq.phase = .latchLo) : AnswersInv (seqStep s) := by
  have hq := (h.seqInRange.withFirstIdx h.cfgWf).withPhase (ph := .clkLo) (by simp)
  rw [seqStep_latchLo hp]
  exact .next (h.pinWrite_withSeq s.cfg.pinStcp false hq (by simp [hp]))

theorem seqStep_clkLo_inv {s : State} (h : s.Inv) (hp : s.seq.phase = .clkLo) : AnswersInv (seqStep s) := by
  rw [seqStep_clkLo hp, seqClkLo, toPhase_eq_withSeq, pinWrite_seq]
  exact .next (h.pinWrite_withSeq s.cfg.pinShcp false (h.seqInRange.withPhase (by simp)) (by simp [hp]))

/-- The counter is that of the pad pulse or of a bit the buffer has, so the row `DATA` is never without a bit to send. -/
theorem seqStep_data_inv {s : State} (h : s.Inv) (hp : s.seq.phase = .data) : AnswersInv (seqStep s) := by
  have hq : Seq.InRange s.cfg { s.seq with phase := .clkHi } := h.seqInRange.withPhase (by simp)
  have hb : s.seq.phase ≠ .idle := by simp [hp]
  by_cases hn : s.seq.idx.toNat = s.cfg.nbits
  · have hdraw : (drawLevel s).2.Inv := h
    rw [seqStep_pad hp hn, toPhase_eq_withSeq, pinWrite_seq]
    exact .next (hdraw.pinWrite_withSeq s.cfg.pinDs (drawLevel s).1 hq hb)
  · have hlt : s.seq.idx.toNat < s.buf.length := by
      obtain ⟨hle, -⟩ := h.seqInRange
      rw [h.buf_length]
      omega
    rw [seqStep_data hp hn (List.getElem?_eq_getElem hlt), toPhase_eq_withSeq, pinWrite_seq]
    exact .next (h.pinWrite_withSeq s.cfg.pinDs _ hq hb)

theorem seqStep_clkHi_inv {s : State} (h : s.Inv) (hp : s.seq.phase = .clkHi) : AnswersInv (seqStep s) := by
  have hb : s.seq.phase ≠ .idle := by simp [hp]
  rw [seqStep_clkHi hp, seqClkHi]
  split
  case isTrue =>
    rw [toPhase_eq_withSeq, pinWrite_seq]
    exact .next (h.pinWrite_withSeq s.cfg.pinShcp true (h.seqInRange.withPhase (by simp)) hb)
  case isFalse hz =>
    exact .next (h.pinWrite_withSeq s.cfg.pinShcp true ((h.seqInRange.withPredIdx hz).withPhase (by simp)) hb)

/-- While an INITCH is in progress its register index is in range, so the row `LATCH_HI` is never without a bit to clear. -/
theorem seqStep_latchHi_inv {s : State} (h : s.Inv) (hp : s.seq.phase = .latchHi) : AnswersInv (seqStep s) := by
  have hb : s.seq.phase ≠ .idle := by simp [hp]
  by_cases hn : s.seq.iact = true ∧ s.seq.ipos.toNat < 7
  · obtain ⟨ha, h7⟩ := hn
    obtain ⟨hidx, hpad, hact⟩ := h.seqInRange
    obtain ⟨hc, -⟩ := hact ha
    have hq : Seq.InRange s.cfg { s.seq with phase := .latchLo, ipos := s.seq.ipos + 1#3 } :=
      ⟨hidx, hpad, fun _ => ⟨hc, by simp⟩⟩
    rw [seqStep_nextBit hp ha h7 hc]
    exact .next ((h.pinWrite_withSeq s.cfg.pinStcp true hq hb).bufWrite _ false)
  · rw [seqStep_done hp hn]
    exact .next ((h.pinWrite_withSeq s.cfg.pinStcp true (h.seqInRange.withoutInitch .idle) hb).respond rfl _)

/-- A micro-step of the sequencer answers a next state and keeps the invariant (41_shift_chain.md R97). -/
theorem seqStep_inv {s : State} (h : s.Inv) : AnswersInv (seqStep s) := by
  cases hp : s.seq.phase with
  | idle => rw [seqStep_idle hp]; exact .next h
  | latchLo => exact seqStep_latchLo_inv h hp
  | clkLo => exact seqStep_clkLo_inv h hp
  | data => exact seqStep_data_inv h hp
  | clkHi => exact seqStep_clkHi_inv h hp
  | latchHi => exact seqStep_latchHi_inv h hp

/-! ### Commands and steps keep the invariant -/

/-- The accepting micro-step of a command answers a next state and keeps the invariant. -/
theorem exec_inv {s : State} (h : s.Inv) (hp : s.seq.phase = .idle) (i : Instr) : AnswersInv (exec i s) := by
  cases i with
  | cfgdir pin v => exact .next ((h.pinDir pin v).respond (by simpa using hp) _)
  | pinwr pin v => exact .next ((h.pinWrite pin v).respond (by simpa using hp) _)
  | pinrd pin => exact .next ((h.pinRead pin).respond (by rw [pinRead_frame]; exact hp) _)
  | abspos r p =>
    cases hc : indexCheck s.cfg r p
    · rw [exec_abspos_range hc]; exact .next (h.respond hp _)
    · rw [exec_abspos_ok hc]; exact .next (h.respond hp _)
  | regwr r p v =>
    cases hc : indexCheck s.cfg r p
    · rw [exec_regwr_range hc]; exact .next (h.respond hp _)
    · rw [exec_regwr_ok hc]; exact .next ((h.bufWrite _ v).startShift nofun)
  | initch r =>
    cases hc : indexCheck s.cfg r 0#8
    · rw [exec_initch_range hc]; exact .next (h.respond hp _)
    · obtain ⟨hidx, hpad, -⟩ := h.seqInRange
      have hlatched : (withSeq { s.seq with ireg := r, ipos := 0#3 } s).Inv :=
        h.withSeq ⟨hidx, hpad, fun ha => by simp [h.iact_eq_false hp] at ha⟩ h.rsp_eq_none
      rw [exec_initch_ok hc]
      exact .next ((hlatched.bufWrite _ false).startShift fun _ => hc)
  | shout => exact .next (h.startShift nofun)

theorem accept_inv {s : State} (h : s.Inv) (hp : s.seq.phase = .idle) (w : Word) : AnswersInv (accept w s) := by
  unfold accept
  split
  · exact exec_inv h hp _
  · exact .next (h.respond hp _)

theorem move_inv {s : State} (h : s.Inv) : AnswersInv (move s) := by
  unfold move
  split
  case h_1 => exact seqStep_inv h
  case h_2 rest _ => exact seqStep_inv (h.withInputs rest)
  case h_3 a b rest _ => exact .next ((h.withInputs rest).envPads a b)
  case h_4 rest _ => exact .next (h.withInputs rest).resetState
  case h_5 w rest _ =>
    split
    · exact seqStep_inv h
    · rename_i hb
      exact accept_inv (h.withInputs rest) ((busy_false_iff s).mp (by simpa using hb)) w

/-- Settles O42: the move a step makes answers a state that meets the invariant, and the chain's reaction keeps its stages. -/
theorem everyStepCompletesAndKeepsTheInvariant : Obligations.EveryStepCompletesAndKeepsTheInvariant := by
  intro s h
  rw [step_eq_settle_move]
  exact (move_inv h).settle s

end Sys2Proof.Machine
end

section
/-! PROOFS, 10_state.md. The pads (R28), the writers of the buffer (R29), and SRSER beside the external chain (R20). -/

namespace Sys2Proof.Machine

/-! ### The pads -/

theorem padDrive_pinDir {pin : Byte} {g : Group} {k : Nat} (hd : decodeW pin = some (g, k)) (v : Level) (s : State) :
    padDrive (pinDir pin v s).2.ports g k = if v then some (outBit s.ports g k) else none := by
  simp only [padDrive, pinDir_dirBit, pinDir_outBit, if_pos hd]

theorem padDrive_pinWrite {pin : Byte} {g : Group} {k : Nat} (hd : decodeW pin = some (g, k)) (v : Level) (s : State) :
    padDrive (pinWrite pin v s).2.ports g k = if dirBit s.ports g k then some v else none := by
  simp only [padDrive, pinWrite_dirBit, pinWrite_outBit, if_pos hd]

/-- Settles O22: what a pad carries after a write of its direction bit and after a write of its output bit. -/
theorem padIsDrivenExactlyWhenThePinIsAnOutput : Obligations.PadIsDrivenExactlyWhenThePinIsAnOutput := by
  intro pin v g k s hd
  exact ⟨⟨_, exec_cfgdir .., padDrive_pinDir hd true s⟩, ⟨_, exec_cfgdir .., padDrive_pinDir hd false s⟩,
    ⟨_, exec_pinwr .., padDrive_pinWrite hd v s⟩⟩

/-! ### The writers of the buffer -/

theorem seqStep_buf {s t : State} (h : seqStep s = .next t) :
    t.buf = s.buf ∨ (s.seq.phase = .latchHi ∧ s.seq.iact = true) := by
  rcases seqStep_cases h with ⟨-, rfl⟩ | ⟨-, _, _, -, -, -, -, -, hbuf, -⟩
  · exact .inl rfl
  · exact hbuf.imp_right fun ⟨hp, ha, _⟩ => ⟨hp, ha⟩

/-- Of the commands only REGWR and INITCH write the buffer in their accepting micro-step. -/
theorem exec_buf {i : Instr} {s t : State} (h : exec i s = .next t) :
    t.buf = s.buf ∨ (∃ r p v, i = .regwr r p v) ∨ ∃ r, i = .initch r := by
  cases i with
  | cfgdir pin v => injection h with h; subst h; exact .inl (by simp)
  | pinwr pin v => injection h with h; subst h; exact .inl (by simp)
  | pinrd pin => injection h with h; subst h; exact .inl (by rw [respond_buf, pinRead_frame])
  | abspos r p =>
    cases hc : indexCheck s.cfg r p
    · rw [exec_abspos_range hc] at h; injection h with h; subst h; exact .inl rfl
    · rw [exec_abspos_ok hc] at h; injection h with h; subst h; exact .inl rfl
  | regwr r p v => exact .inr (.inl ⟨r, p, v, rfl⟩)
  | initch r => exact .inr (.inr ⟨r, rfl⟩)
  | shout => injection h with h; subst h; exact .inl rfl

/-- Settles O44: a micro-step writes the buffer only inside an INITCH, an accepted command only as REGWR or INITCH, and of the
other moves only a reset does. -/
theorem onlyRegwrInitchAndResetChangeTheBuffer : Obligations.OnlyRegwrInitchAndResetChangeTheBuffer := by
  intro s t h hbuf
  rcases step_cases h with ⟨u, rfl, hu, -⟩ | ⟨rest, u, -, rfl, hu⟩ | ⟨a, b, rest, -, rfl⟩ | ⟨rest, hi, -⟩ |
    ⟨hb, w, rest, hi, ⟨i, u, hd, hu, rfl⟩ | ⟨e, -, rfl⟩⟩
  · exact .inr (.inr ((seqStep_buf hu).resolve_left hbuf))
  · exact .inr (.inr ((seqStep_buf hu).resolve_left hbuf))
  · exact absurd rfl hbuf
  · exact .inl ⟨rest, hi⟩
  · refine .inr (.inl ⟨hb, w, rest, hi, ?_⟩)
    rcases (exec_buf hu).resolve_left hbuf with ⟨r, p, v, rfl⟩ | ⟨r, rfl⟩
    · exact .inl ⟨r, p, v, hd⟩
    · exact .inr ⟨r, hd⟩
  · exact absurd rfl hbuf

/-! ### SRSER beside the external chain (42_external_chain.md) -/

/-- `s` with the external chain `c`. -/
def withChain (c : ExtChain) (s : State) : State := { s with chain := c }

/-- An outcome with the external chain `c` in its next state, if it answers one. -/
def outcomeWithChain (c : ExtChain) (o : Host.Outcome State Fault Refusal) : Host.Outcome State Fault Refusal :=
  match o with
  | .next t => .next (withChain c t)
  | .fault f => .fault f
  | .refused r => .refused r

theorem pinWrite_withChain (pin : Byte) (v : Level) (c : ExtChain) (s : State) :
    pinWrite pin v (withChain c s) = ((pinWrite pin v s).1, withChain c (pinWrite pin v s).2) := by
  unfold pinWrite; split <;> rfl

theorem pinDir_withChain (pin : Byte) (v : Level) (c : ExtChain) (s : State) :
    pinDir pin v (withChain c s) = ((pinDir pin v s).1, withChain c (pinDir pin v s).2) := by
  unfold pinDir; split <;> rfl

theorem memRead_withChain (r : PortReg) (k : Nat) (c : ExtChain) (s : State) :
    memRead r k (withChain c s) = ((memRead r k s).1, withChain c (memRead r k s).2) := by
  have hs : ∀ g, sensed g k (withChain c s) = ((sensed g k s).1, withChain c (sensed g k s).2) := by
    intro g
    have hports : (withChain c s).ports = s.ports := rfl
    unfold sensed
    rw [hports]
    split <;> rfl
  cases r with
  | ina => exact hs .a
  | inb => exact hs .b
  | dira | outa | dirb | outb => rfl

theorem pinRead_withChain (pin : Byte) (c : ExtChain) (s : State) :
    pinRead pin (withChain c s) = ((pinRead pin s).1, withChain c (pinRead pin s).2) := by
  unfold pinRead
  split
  · simp only [memRead_withChain]; rfl
  · rfl

theorem seqStep_noBit {s : State} (h : s.seq.phase = .data) (hi : s.seq.idx.toNat ≠ s.cfg.nbits)
    (hd : s.buf[s.seq.idx.toNat]? = none) : seqStep s = .fault .sequencerOutOfRange := by
  simp only [seqStep, h, seqData, if_neg hi, hd]

theorem seqStep_noRegister {s : State} (h : s.seq.phase = .latchHi) (hn : s.seq.iact = true ∧ s.seq.ipos.toNat < 7)
    (hc : indexCheck s.cfg s.seq.ireg 0#8 = false) : seqStep s = .fault .sequencerOutOfRange := by
  simp [seqStep, h, seqLatchHi, hn, hc]

/-- No micro-step of the sequencer reads the chain. -/
theorem seqStep_withChain (c : ExtChain) (s : State) :
    seqStep (withChain c s) = outcomeWithChain c (seqStep s) := by
  cases hp : s.seq.phase with
  | idle => rw [seqStep_idle hp, seqStep_idle (s := withChain c s) hp]; rfl
  | latchLo =>
    rw [seqStep_latchLo hp, seqStep_latchLo (s := withChain c s) hp, seqLatchLo, pinWrite_withChain]; rfl
  | clkLo =>
    rw [seqStep_clkLo hp, seqStep_clkLo (s := withChain c s) hp, seqClkLo, pinWrite_withChain]; rfl
  | data =>
    by_cases hn : s.seq.idx.toNat = s.cfg.nbits
    · have hdraw : drawLevel (withChain c s) = ((drawLevel s).1, withChain c (drawLevel s).2) := rfl
      rw [seqStep_pad hp hn, seqStep_pad (s := withChain c s) hp hn, hdraw, pinWrite_withChain]; rfl
    · cases hd : s.buf[s.seq.idx.toNat]? with
      | none => rw [seqStep_noBit hp hn hd, seqStep_noBit (s := withChain c s) hp hn hd]; rfl
      | some d =>
        rw [seqStep_data hp hn hd, seqStep_data (s := withChain c s) hp hn hd, pinWrite_withChain]; rfl
  | clkHi =>
    have hseq : (withChain c s).seq = s.seq := rfl
    rw [seqStep_clkHi hp, seqStep_clkHi (s := withChain c s) hp, seqClkHi, seqClkHi, pinWrite_withChain, hseq]
    split <;> rfl
  | latchHi =>
    by_cases hn : s.seq.iact = true ∧ s.seq.ipos.toNat < 7
    · cases hc : indexCheck s.cfg s.seq.ireg 0#8 with
      | false => rw [seqStep_noRegister hp hn hc, seqStep_noRegister (s := withChain c s) hp hn hc]; rfl
      | true =>
        obtain ⟨ha, h7⟩ := hn
        rw [seqStep_nextBit hp ha h7 hc, seqStep_nextBit (s := withChain c s) hp ha h7 hc, pinWrite_withChain]; rfl
    · rw [seqStep_done hp hn, seqStep_done (s := withChain c s) hp hn, pinWrite_withChain]; rfl

/-- No command reads the chain. -/
theorem exec_withChain (i : Instr) (c : ExtChain) (s : State) :
    exec i (withChain c s) = outcomeWithChain c (exec i s) := by
  cases i with
  | cfgdir pin v => rw [exec_cfgdir, exec_cfgdir, pinDir_withChain]; rfl
  | pinwr pin v => rw [exec_pinwr, exec_pinwr, pinWrite_withChain]; rfl
  | pinrd pin => rw [exec_pinrd, exec_pinrd, pinRead_withChain]; rfl
  | abspos r p =>
    cases hc : indexCheck s.cfg r p
    · rw [exec_abspos_range hc, exec_abspos_range (s := withChain c s) hc]; rfl
    · rw [exec_abspos_ok hc, exec_abspos_ok (s := withChain c s) hc]; rfl
  | regwr r p v =>
    cases hc : indexCheck s.cfg r p
    · rw [exec_regwr_range hc, exec_regwr_range (s := withChain c s) hc]; rfl
    · rw [exec_regwr_ok hc, exec_regwr_ok (s := withChain c s) hc]; rfl
  | initch r =>
    cases hc : indexCheck s.cfg r 0#8
    · rw [exec_initch_range hc, exec_initch_range (s := withChain c s) hc]; rfl
    · rw [exec_initch_ok hc, exec_initch_ok (s := withChain c s) hc]; rfl
  | shout => rfl

theorem accept_withChain (w : Word) (c : ExtChain) (s : State) :
    accept w (withChain c s) = outcomeWithChain c (accept w s) := by
  unfold accept
  split
  · exact exec_withChain _ c s
  · rfl

theorem move_withChain (c : ExtChain) (s : State) : move (withChain c s) = outcomeWithChain c (move s) := by
  have hi : (withChain c s).inputs = s.inputs := rfl
  unfold move
  rw [hi]
  split
  case h_1 => exact seqStep_withChain c s
  case h_2 rest _ => exact seqStep_withChain c { s with inputs := rest }
  case h_3 => rfl
  case h_4 => rfl
  case h_5 w rest _ =>
    have hb : busy (withChain c s) = busy s := rfl
    rw [hb]
    split
    · exact seqStep_withChain c s
    · exact accept_withChain w c { s with inputs := rest }

/-- Settles O48: the move of a step does not read the chain, and the chain's reaction writes nothing else. -/
theorem srserDoesNotSeeTheExternalChain : Obligations.SrserDoesNotSeeTheExternalChain := by
  intro s t c h
  rw [step_eq_settle_move, settleOutcome_eq_next] at h
  obtain ⟨u, hu, rfl⟩ := h
  refine ⟨chainAfter (withChain c s) (withChain c u), ?_⟩
  show step (withChain c s) = _
  rw [step_eq_settle_move, move_withChain, hu]
  rfl

end Sys2Proof.Machine
end

section
/-! PROOFS, 10_state.md. A ShiftOut as a run of the sequencer (41_shift_chain.md R94, R97), for SHOUT, REGWR and INITCH. -/

namespace Sys2Proof

theorem encode_hits_rowOf (i : Instr) : (rowOf i).hits (encode i) = true := by
  have row : Laws.EncodesItsRow.Statement i :=
    match i with
    | .cfgdir pin v => Laws.EncodesItsRow.cfgdir pin v
    | .pinwr pin v => Laws.EncodesItsRow.pinwr pin v
    | .pinrd pin => Laws.EncodesItsRow.pinrd pin
    | .abspos r p => Laws.EncodesItsRow.abspos r p
    | .regwr r p v => Laws.EncodesItsRow.regwr r p v
    | .initch r => Laws.EncodesItsRow.initch r
    | .shout => Laws.EncodesItsRow.shout
  exact (hits_iff _ _).mpr row

/-- The opcode of an encoded command leads the decoder to the command's row, with the command's operands in the fields. -/
theorem decode_encode_eq_decodeRow (i : Instr) : decode (encode i) = decodeRow (rowOf i) i (encode i) := by
  cases i <;> simp [decode, encode, rowOf, fieldOp_layout, fieldA_layout, fieldB_layout, fieldV_layout]

/-- The decoder undoes the encoder (30_encoding.md R62, R66). -/
theorem decode_encode (i : Instr) : decode (encode i) = .ok i := by
  rw [decode_encode_eq_decodeRow]
  exact decodeRow_eq_ok.mpr ⟨encode_hits_rowOf i, rfl⟩

end Sys2Proof

namespace Sys2Proof.Machine

/-! ### The accepting step -/

theorem step_offer {s : State} {w : Word} {rest : List Input} {i : Instr} (hb : busy s = false)
    (hi : s.inputs = .offer w :: rest) (hd : decode w = .ok i) :
    step s = settleOutcome s (exec i { s with inputs := rest }) := by
  simp [step, hi, hb, accept, hd]

/-- A move that touches no port leaves a chain with driven lines as it is. -/
theorem settle_same {b s : State} (hc : s.cfg = b.cfg) (hp : s.ports = b.ports) (hw : wfChain b = true) :
    settle b s = s := by
  rw [settle, chainAfter_same hc hp hw]

/-! ### A ShiftOut as a run of the sequencer -/

theorem drawLevel_lineWrite (pin : Byte) (v : Level) (s : State) :
    drawLevel (lineWrite pin v s) = ((drawLevel s).1, lineWrite pin v (drawLevel s).2) := by
  have h : (pinWrite pin v (drawLevel s).2).2 = (drawLevel (pinWrite pin v s).2).2 := by
    unfold pinWrite; split <;> rfl
  refine Prod.ext (by simp [drawLevel]) ?_
  simp only [lineWrite, h]
  rfl

/-- The pad pulse clocks one draw. -/
theorem padPulse_eq_clockBit {s : State} (h : s.cfg.pad = true) :
    padPulse s = clockBit (drawLevel s).1 (drawLevel s).2 := by
  simp only [padPulse, h, if_true, drawLevel_lineWrite, clockBit, drawLevel_state_cfg]

theorem padPulse_of_noPad {s : State} (h : s.cfg.pad = false) : padPulse s = s := by
  simp [padPulse, h]

/-- Three steps make the pad pulse, where there is one, and leave the counter at the last bit of the buffer. -/
theorem run_padPulse {s : State} (hp : s.seq.phase = .clkLo) (hi : offersWait s.inputs) (hn : 8 ≤ s.cfg.nbits)
    (hx : s.seq.idx.toNat = s.cfg.nbits - 1 + s.cfg.pad.toNat) :
    runSteps (3 * s.cfg.pad.toNat) s =
      .next (withSeq { s.seq with idx := BitVec.ofNat 11 (s.cfg.nbits - 1) } (padPulse s)) := by
  cases hpad : s.cfg.pad with
  | false =>
    have hidx : BitVec.ofNat 11 (s.cfg.nbits - 1) = s.seq.idx := by
      rw [hpad, Bool.toNat_false, Nat.add_zero] at hx
      rw [← hx, BitVec.ofNat_toNat, BitVec.setWidth_eq]
    rw [padPulse_of_noPad hpad, hidx]
    rfl
  | true =>
    have hx' : s.seq.idx.toNat = s.cfg.nbits := by rw [hx, hpad, Bool.toNat_true]; omega
    have hz : s.seq.idx ≠ 0#11 := by intro h; rw [h] at hx'; simp at hx'; omega
    have hidx : s.seq.idx - 1#11 = BitVec.ofNat 11 (s.cfg.nbits - 1) := by
      have := s.seq.idx.isLt
      apply BitVec.eq_of_toNat_eq
      rw [BitVec.toNat_ofNat, Nat.mod_eq_of_lt (by omega)]
      bv_omega
    rw [Bool.toNat_true, runSteps_succ (step_clkLo hp hi),
      runSteps_succ (step_pad rfl (by simpa using hi) (by simpa using hx')),
      runSteps_succ (step_clkHi rfl (by simpa using hi) (by simpa using hz)), runSteps_zero]
    simp [padPulse, hpad, drawLevel_withSeq, lineWrite_withSeq, hp, hidx]

/-- A ShiftOut up to its last write, the rising latch. -/
def beforeLatch (s : State) : State := sendBits s.cfg.nbits (padPulse (lineWrite s.cfg.pinStcp false s))

theorem shiftOut_eq (s : State) : shiftOut s = lineWrite s.cfg.pinStcp true (beforeLatch s) := rfl

theorem beforeLatch_frame (s : State) :
    (beforeLatch s).cfg = s.cfg ∧ (beforeLatch s).inputs = s.inputs ∧ (beforeLatch s).buf = s.buf := by
  obtain ⟨hcfg, hinputs, hbuf, -, -⟩ := sendBits_frame s.cfg.nbits (padPulse (lineWrite s.cfg.pinStcp false s))
  obtain ⟨hcfg', hinputs', hbuf', -, -⟩ := padPulse_frame (lineWrite s.cfg.pinStcp false s)
  exact ⟨by rw [beforeLatch, hcfg, hcfg', lineWrite_cfg], by rw [beforeLatch, hinputs, hinputs', lineWrite_inputs],
    by rw [beforeLatch, hbuf, hbuf', lineWrite_buf]⟩

/-- From `LATCH_LO` to `LATCH_HI` the sequencer runs a ShiftOut up to its last write. -/
theorem run_beforeLatch {s : State} (hc : s.cfg.wf = true) (hl : s.buf.length = s.cfg.nbits)
    (hp : s.seq.phase = .latchLo) (hi : offersWait s.inputs) :
    runSteps (1 + 3 * s.cfg.pulses) s =
      .next (withSeq { s.seq with phase := .latchHi, idx := 0#11 } (beforeLatch s)) := by
  have hn := nbits_range hc
  obtain ⟨hcfg, hinputs, hbuf, -, -⟩ := padPulse_frame (lineWrite s.cfg.pinStcp false s)
  rw [lineWrite_cfg] at hcfg
  rw [lineWrite_inputs] at hinputs
  rw [lineWrite_buf] at hbuf
  have hlast : (BitVec.ofNat 11 (s.cfg.nbits - 1)).toNat = s.cfg.nbits - 1 := by
    rw [BitVec.toNat_ofNat]; exact Nat.mod_eq_of_lt (by omega)
  have hcount : 1 + 3 * s.cfg.pulses = 3 * s.cfg.pad.toNat + 3 * (s.cfg.nbits - 1 + 1) + 1 := by
    unfold Config.pulses; omega
  have hpad := run_padPulse
    (s := withSeq { s.seq with phase := .clkLo, idx := BitVec.ofNat 11 (s.cfg.nbits - 1 + s.cfg.pad.toNat) }
      (lineWrite s.cfg.pinStcp false s)) rfl (by simpa using hi) (by simpa using hn.1)
    (by simpa using firstIdx_toNat hc)
  simp only [withSeq_cfg, lineWrite_cfg, withSeq_seq] at hpad
  rw [hcount, runSteps_succ (step_latchLo hp hi), runSteps_add hpad,
    run_sendBits (s.cfg.nbits - 1) rfl (by simpa [hinputs] using hi) (by simpa using hlast)
      (by simpa [hbuf, hcfg] using hl) (by simp [hcfg]; omega)]
  simp only [padPulse_withSeq, sendBits_withSeq, withSeq_withSeq, withSeq_seq]
  rw [Nat.sub_add_cancel (by omega)]
  rfl

/-- One step after `run_beforeLatch` completes the events of a ShiftOut. -/
theorem runSteps_shiftEvents {s t u : State} (h : runSteps (1 + 3 * s.cfg.pulses) s = .next t)
    (hlast : step t = .next u) : runSteps s.cfg.shiftEvents s = .next u := by
  have hcount : s.cfg.shiftEvents = 1 + 3 * s.cfg.pulses + 1 := by unfold Config.shiftEvents; omega
  rw [hcount, runSteps_add h]
  exact runSteps_succ hlast

/-- The last ShiftOut of a command as a run of the sequencer: the serialisation, then the response. -/
theorem run_shiftOut_done {s : State} (hc : s.cfg.wf = true) (hl : s.buf.length = s.cfg.nbits)
    (hp : s.seq.phase = .latchLo) (hi : offersWait s.inputs) (hd : ¬(s.seq.iact = true ∧ s.seq.ipos.toNat < 7)) :
    runSteps s.cfg.shiftEvents s =
      .next (respond (.ok 0#16)
        (withSeq { s.seq with phase := .idle, idx := 0#11, iact := false } (shiftOut s))) := by
  obtain ⟨hcfg, hinputs, -⟩ := beforeLatch_frame s
  rw [runSteps_shiftEvents (run_beforeLatch hc hl hp hi) (step_latchHi_done rfl (by simpa [hinputs] using hi) hd)]
  simp only [lineWrite_withSeq, withSeq_withSeq, withSeq_seq, withSeq_cfg, hcfg, shiftOut_eq]

/-- A ShiftOut inside an INITCH as a run of the sequencer: the serialisation, then the write of the next local position. -/
theorem run_shiftOut_next {s : State} (hc : s.cfg.wf = true) (hl : s.buf.length = s.cfg.nbits)
    (hp : s.seq.phase = .latchLo) (hi : offersWait s.inputs) (ha : s.seq.iact = true) (h7 : s.seq.ipos.toNat < 7)
    (hr : indexCheck s.cfg s.seq.ireg 0#8 = true) :
    runSteps s.cfg.shiftEvents s =
      .next (bufWrite (absPos s.seq.ireg ((s.seq.ipos + 1#3).setWidth 8)) false
        (withSeq { s.seq with phase := .latchLo, idx := 0#11, ipos := s.seq.ipos + 1#3 } (shiftOut s))) := by
  obtain ⟨hcfg, hinputs, -⟩ := beforeLatch_frame s
  rw [runSteps_shiftEvents (run_beforeLatch hc hl hp hi)
    (step_latchHi_next rfl (by simpa [hinputs] using hi) ha h7 (by simpa [hcfg] using hr))]
  simp only [lineWrite_withSeq, withSeq_withSeq, withSeq_seq, withSeq_cfg, hcfg, shiftOut_eq]

/-! ### The eight ShiftOuts of an INITCH (41_shift_chain.md R93) -/

theorem clearBits_withSeq (r : Byte) (n p : Nat) (q : Seq) (s : State) :
    clearBits r n p (withSeq q s) = withSeq q (clearBits r n p s) := by
  induction n generalizing p s with
  | zero => simp only [clearBits, bufWrite_withSeq, shiftOut_withSeq]
  | succ n ih => simp only [clearBits, bufWrite_withSeq, shiftOut_withSeq, ih]

/-- From the write of local position `p` on, an INITCH clears and serialises the positions up to 7, and then responds. -/
theorem run_clearBits {n p : Nat} {s : State} (hc : s.cfg.wf = true) (hl : s.buf.length = s.cfg.nbits)
    (hp : s.seq.phase = .latchLo) (hi : offersWait s.inputs) (ha : s.seq.iact = true) (hx : s.seq.ipos.toNat = p)
    (hn : p + n = 7) (hr : indexCheck s.cfg s.seq.ireg 0#8 = true) :
    runSteps ((n + 1) * s.cfg.shiftEvents) (bufWrite (absPos s.seq.ireg 0#8 + p) false s) =
      .next (respond (.ok 0#16)
        (withSeq { s.seq with phase := .idle, idx := 0#11, iact := false, ipos := 7#3 }
          (clearBits s.seq.ireg n p s))) := by
  induction n generalizing p s with
  | zero =>
    have h7 : s.seq.ipos = 7#3 := BitVec.eq_of_toNat_eq (by rw [hx]; simpa using hn)
    rw [Nat.zero_add, Nat.one_mul]
    refine (run_shiftOut_done (s := bufWrite (absPos s.seq.ireg 0#8 + p) false s) hc (by simpa using hl) hp hi
      (by simp [h7])).trans ?_
    simp only [bufWrite_seq, h7]
    rfl
  | succ n ih =>
    have hnext : absPos s.seq.ireg ((s.seq.ipos + 1#3).setWidth 8) = absPos s.seq.ireg 0#8 + (p + 1) := by
      have : ((s.seq.ipos + 1#3).setWidth 8).toNat = p + 1 := by bv_omega
      simp only [absPos, this]
      simp
    have hpos : (s.seq.ipos + 1#3).toNat = p + 1 := by bv_omega
    have hone := run_shiftOut_next (s := bufWrite (absPos s.seq.ireg 0#8 + p) false s) hc (by simpa using hl) hp hi ha
      (show s.seq.ipos.toNat < 7 by omega) hr
    obtain ⟨hcfg, hinputs, hbuf, hseq, -⟩ := shiftOut_frame (bufWrite (absPos s.seq.ireg 0#8 + p) false s)
    simp only [bufWrite_seq, bufWrite_cfg, hnext] at hone
    rw [Nat.succ_mul, Nat.add_comm, runSteps_add hone]
    have hrest := ih (p := p + 1)
      (s := withSeq { s.seq with phase := .latchLo, idx := 0#11, ipos := s.seq.ipos + 1#3 }
        (shiftOut (bufWrite (absPos s.seq.ireg 0#8 + p) false s)))
      (by simpa [hcfg] using hc) (by simpa [hcfg, hbuf] using hl) rfl (by simpa [hinputs] using hi) ha
      (by simpa using hpos) (by omega) (by simpa [hcfg] using hr)
    simp only [withSeq_cfg, hcfg, bufWrite_cfg, withSeq_seq, clearBits_withSeq, withSeq_withSeq] at hrest
    exact hrest

end Sys2Proof.Machine
end

section
/-! PROOFS, 10_state.md. What a ShiftOut leaves in the external chain (42_external_chain.md R116), and the chain commands run
to completion: the outputs show the buffer (10_state.md R30). -/

namespace Sys2Proof.Machine

/-! ### Bits clocked into the chain -/

/-- The chain after the bits `ds` have been clocked in, the last of the list first, so that `ds` stands at its start. -/
def ExtChain.shiftIn (ds : List Level) (c : ExtChain) : ExtChain := { c with sh := (ds ++ c.sh).take c.sh.length }

theorem ExtChain.shiftIn_nil (c : ExtChain) : c.shiftIn [] = c := by
  simp [ExtChain.shiftIn]

theorem ExtChain.clock_eq_shiftIn (d : Level) (c : ExtChain) : c.clock d = c.shiftIn [d] := by
  simp [ExtChain.clock, ExtChain.shiftIn, List.dropLast_eq_take]

theorem ExtChain.shiftIn_sh_length (ds : List Level) (c : ExtChain) : (c.shiftIn ds).sh.length = c.sh.length := by
  simp [ExtChain.shiftIn]

theorem ExtChain.shiftIn_shiftIn (ds es : List Level) (c : ExtChain) :
    (c.shiftIn es).shiftIn ds = c.shiftIn (ds ++ es) := by
  have hlen := c.shiftIn_sh_length es
  have htake : (ds ++ (es ++ c.sh).take c.sh.length).take c.sh.length = (ds ++ es ++ c.sh).take c.sh.length := by
    rw [List.take_append, List.take_take, Nat.min_eq_left (Nat.sub_le ..), ← List.take_append, List.append_assoc]
  rw [ExtChain.shiftIn, hlen]
  simp only [ExtChain.shiftIn, htake]

/-! ### A ShiftOut and the chain -/

/-- The level of the pad pulse, where there is one. -/
def padBits (s : State) : List Level := if s.cfg.pad then [Config.draw s.draws] else []

theorem wfChain_padPulse (s : State) : wfChain (padPulse s) = wfChain s := by
  cases h : s.cfg.pad
  · rw [padPulse_of_noPad h]
  · rw [padPulse_eq_clockBit h, wfChain_clockBit]; rfl

theorem wfChain_sendBits (n : Nat) (s : State) : wfChain (sendBits n s) = wfChain s := by
  induction n generalizing s with
  | zero => rfl
  | succ n ih => rw [sendBits, ih, wfChain_clockBit]

theorem wfChain_beforeLatch (s : State) : wfChain (beforeLatch s) = wfChain s := by
  rw [beforeLatch, wfChain_sendBits, wfChain_padPulse, wfChain_lineWrite]

theorem wfChain_shiftOut (s : State) : wfChain (shiftOut s) = wfChain s := by
  rw [shiftOut_eq, wfChain_lineWrite, wfChain_beforeLatch]

theorem padPulse_chain {s : State} (h : wfChain s = true) : (padPulse s).chain = s.chain.shiftIn (padBits s) := by
  cases hp : s.cfg.pad
  · simp [padPulse_of_noPad hp, padBits, hp, ExtChain.shiftIn_nil]
  · have hw : wfChain (drawLevel s).2 = true := h
    rw [padPulse_eq_clockBit hp, clockBit_chain _ hw, ExtChain.clock_eq_shiftIn, padBits, if_pos hp]
    rfl

/-- The loop puts the buffer's first `n` bits at the start of the chain. -/
theorem sendBits_chain {n : Nat} {s : State} (h : wfChain s = true) (hn : n ≤ s.buf.length) :
    (sendBits n s).chain = s.chain.shiftIn (s.buf.take n) := by
  induction n generalizing s with
  | zero => simp [sendBits, ExtChain.shiftIn_nil]
  | succ n ih =>
    have hbit : s.buf.take (n + 1) = s.buf.take n ++ [s.buf.getD n false] := by
      rw [List.take_succ_eq_append_getElem (by omega), List.getD_eq_getElem _ _ (by omega)]
    rw [sendBits, ih (by rw [wfChain_clockBit, h]) (by rw [clockBit_buf]; omega), clockBit_buf, clockBit_chain _ h,
      ExtChain.clock_eq_shiftIn, ExtChain.shiftIn_shiftIn, hbit]

theorem sendBits_stcp (n : Nat) {s : State} (h : wfChain s = true) :
    lineDrive s.cfg.pinStcp (sendBits n s).ports = lineDrive s.cfg.pinStcp s.ports := by
  induction n generalizing s with
  | zero => rfl
  | succ n ih =>
    have hrest := ih (s := clockBit (s.buf.getD n false) s) (by rw [wfChain_clockBit, h])
    rw [clockBit_cfg, clockBit_stcp _ h] at hrest
    exact hrest

theorem padPulse_stcp {s : State} (h : wfChain s = true) :
    lineDrive s.cfg.pinStcp (padPulse s).ports = lineDrive s.cfg.pinStcp s.ports := by
  cases hp : s.cfg.pad
  · rw [padPulse_of_noPad hp]
  · have hw : wfChain (drawLevel s).2 = true := h
    have hclk := clockBit_stcp (drawLevel s).1 hw
    rw [drawLevel_state_cfg, drawLevel_state_ports] at hclk
    rw [padPulse_eq_clockBit hp, hclk]

/-- The latch line is low when the last write of a ShiftOut raises it. -/
theorem beforeLatch_stcp {s : State} (h : wfChain s = true) :
    lineDrive s.cfg.pinStcp (beforeLatch s).ports = some false := by
  have hlow : wfChain (lineWrite s.cfg.pinStcp false s) = true := by rw [wfChain_lineWrite, h]
  obtain ⟨-, -, l, hl⟩ := lineDrive_of_wfChain h
  have hsend := sendBits_stcp s.cfg.nbits (s := padPulse (lineWrite s.cfg.pinStcp false s))
    (by rw [wfChain_padPulse, hlow])
  have hpad := padPulse_stcp hlow
  obtain ⟨hcfg, -⟩ := padPulse_frame (lineWrite s.cfg.pinStcp false s)
  rw [hcfg, lineWrite_cfg] at hsend
  rw [lineWrite_cfg] at hpad
  rw [beforeLatch, hsend, hpad, lineDrive_lineWrite, if_pos rfl, hl]
  rfl

theorem beforeLatch_chain {s : State} (h : wfChain s = true) (hl : s.buf.length = s.cfg.nbits) :
    (beforeLatch s).chain = s.chain.shiftIn (s.buf ++ padBits s) := by
  have hlow : wfChain (lineWrite s.cfg.pinStcp false s) = true := by rw [wfChain_lineWrite, h]
  have hpad := padPulse_chain hlow
  obtain ⟨-, -, hbuf, -, -⟩ := padPulse_frame (lineWrite s.cfg.pinStcp false s)
  rw [lineWrite_buf] at hbuf
  rw [beforeLatch, sendBits_chain (by rw [wfChain_padPulse, hlow]) (by rw [hbuf, hl]), hbuf, hpad,
    lineWrite_chain_low _ h, ExtChain.shiftIn_shiftIn, ← hl, List.take_length]
  simp [padBits]

/-- Under `WF_CHAIN` a ShiftOut leaves the buffer at the start of the shift stage, the pad bit after it, what the chain held
before after that, and all of it in the output stage too (42_external_chain.md R116). -/
theorem shiftOut_chain {s : State} (h : wfChain s = true) (hl : s.buf.length = s.cfg.nbits) :
    (shiftOut s).chain = (s.chain.shiftIn (s.buf ++ padBits s)).latch := by
  obtain ⟨hcfg, -⟩ := beforeLatch_frame s
  have hlatch := lineWrite_chain_latch (s := beforeLatch s) (by rw [wfChain_beforeLatch, h])
    (by rw [hcfg, beforeLatch_stcp h])
  rw [hcfg] at hlatch
  rw [shiftOut_eq, hlatch, beforeLatch_chain h hl]

/-! ### States in which a ShiftOut shows the buffer -/

/-- What a ShiftOut needs: a configuration in range, a buffer of `8*M` bits, `WF_CHAIN`, and a chain of `8*M_EXT` stages. -/
structure ShiftReady (s : State) : Prop where
  cfgWf : s.cfg.wf = true
  buf_length : s.buf.length = s.cfg.nbits
  lines : wfChain s = true
  stages : chainWf s = true

theorem State.Inv.shiftReady {s : State} (h : s.Inv) (hw : wfChain s = true) : ShiftReady s := by
  have hbuf := h.buf_length
  obtain ⟨hcfg, -, -, -, hchain⟩ := h
  exact ⟨hcfg, hbuf, hw, hchain⟩

theorem ShiftReady.bufWrite {s : State} (h : ShiftReady s) (i : Nat) (v : Level) : ShiftReady (bufWrite i v s) :=
  ⟨h.cfgWf, by simpa using h.buf_length, h.lines, h.stages⟩

theorem ShiftReady.withSeq {s : State} (h : ShiftReady s) (q : Seq) : ShiftReady (withSeq q s) :=
  ⟨h.cfgWf, h.buf_length, h.lines, h.stages⟩

theorem ShiftReady.startShift {s : State} (h : ShiftReady s) (iact : Bool) : ShiftReady (startShift iact s) :=
  ⟨h.cfgWf, h.buf_length, h.lines, h.stages⟩

theorem ShiftReady.shiftOut {s : State} (h : ShiftReady s) : ShiftReady (shiftOut s) := by
  obtain ⟨hcfg, -, hbuf, -, -⟩ := shiftOut_frame s
  obtain ⟨hsh, -⟩ := (chainWf_iff s).mp h.stages
  refine ⟨by rw [hcfg]; exact h.cfgWf, by rw [hbuf, hcfg]; exact h.buf_length, by rw [wfChain_shiftOut]; exact h.lines,
    (chainWf_iff _).mpr ?_⟩
  rw [shiftOut_chain h.lines h.buf_length, hcfg]
  exact ⟨(ExtChain.shiftIn_sh_length ..).trans hsh, (ExtChain.shiftIn_sh_length ..).trans hsh⟩

/-- The whole of an INITCH ends with the ShiftOut of a state that is ready for it. -/
theorem clearBits_eq_shiftOut (r : Byte) (n p : Nat) {s : State} (h : ShiftReady s) :
    ∃ v, clearBits r n p s = shiftOut v ∧ v.cfg = s.cfg ∧ ShiftReady v := by
  induction n generalizing p s with
  | zero => exact ⟨_, rfl, rfl, h.bufWrite ..⟩
  | succ n ih =>
    obtain ⟨v, hv, hcfg, hready⟩ := ih (p + 1) (h.bufWrite (absPos r 0#8 + p) false).shiftOut
    obtain ⟨hcfg', -⟩ := shiftOut_frame (Machine.bufWrite (absPos r 0#8 + p) false s)
    exact ⟨v, hv, hcfg.trans hcfg', hready⟩

/-! ### The chain commands run to completion -/

/-- Under `WF_CHAIN` the acceptance of a command that touches no port does not move the chain. -/
theorem step_offersOnly {s u : State} {i : Instr} (ho : offersOnly i s) (hw : wfChain s = true)
    (hu : exec i { s with inputs := [] } = .next u) (hcfg : u.cfg = s.cfg) (hports : u.ports = s.ports) :
    step s = .next u := by
  obtain ⟨hb, hi⟩ := ho
  rw [step_offer hb hi (decode_encode i), hu, settleOutcome_next, settle_same hcfg hports hw]

/-- SHOUT and REGWR go on with one ShiftOut. -/
theorem run_startShift {s : State} (h : ShiftReady s) (hi : s.inputs = []) :
    ∃ q v, runSteps s.cfg.shiftEvents (startShift false s) = .next (respond (.ok 0#16) (withSeq q (shiftOut v))) ∧
      v.cfg = s.cfg ∧ ShiftReady v :=
  ⟨_, startShift false s, run_shiftOut_done (s := startShift false s) h.cfgWf h.buf_length rfl (.inl hi) (by simp), rfl,
    h.startShift false⟩

/-- INITCH goes on with eight ShiftOuts, of which the last shows the whole buffer. -/
theorem run_startInitch {s : State} {r : Byte} (h : ShiftReady s) (hi : s.inputs = [])
    (hc : indexCheck s.cfg r 0#8 = true) :
    ∃ q v, runSteps (8 * s.cfg.shiftEvents)
        (startShift true (bufWrite (absPos r 0#8) false { s with seq := { s.seq with ireg := r, ipos := 0#3 } })) =
          .next (respond (.ok 0#16) (withSeq q (shiftOut v))) ∧
      v.cfg = s.cfg ∧ ShiftReady v := by
  have hgo := (h.withSeq { s.seq with ireg := r, ipos := 0#3 }).startShift true
  obtain ⟨v, hv, hcfg, hv'⟩ := clearBits_eq_shiftOut r 7 0 hgo
  have hrun := run_clearBits (n := 7) hgo.cfgWf hgo.buf_length rfl (.inl hi) rfl rfl rfl hc
  exact ⟨_, v, hv ▸ hrun, hcfg, hv'⟩

/-- Every command that re-serialises runs to a ShiftOut, after which only the sequencer moves and the response comes. -/
theorem run_chainCommand {s : State} {i : Instr} (h : ShiftReady s) (ho : offersOnly i s)
    (hm : 1 < microSteps s.cfg i) :
    ∃ q v, runSteps (microSteps s.cfg i) s = .next (respond (.ok 0#16) (withSeq q (shiftOut v))) ∧
      v.cfg = s.cfg ∧ ShiftReady v := by
  have hready : ShiftReady { s with inputs := [] } := ⟨h.cfgWf, h.buf_length, h.lines, h.stages⟩
  cases i with
  | cfgdir | pinwr | pinrd | abspos => exact absurd hm (by simp [microSteps])
  | regwr r p v =>
    cases hc : indexCheck s.cfg r p
    · exact absurd hm (by simp [microSteps, hc])
    · have hgo := hready.bufWrite (absPos r p) v
      obtain ⟨q, u, hu, hcfg, hu'⟩ := run_startShift hgo rfl
      refine ⟨q, u, ?_, hcfg, hu'⟩
      simp only [microSteps, hc, if_true]
      rw [Nat.add_comm, runSteps_succ (step_offersOnly ho h.lines (exec_regwr_ok hc) rfl rfl)]
      exact hu
  | initch r =>
    cases hc : indexCheck s.cfg r 0#8
    · exact absurd hm (by simp [microSteps, hc])
    · obtain ⟨q, v, hv, hcfg, hv'⟩ := run_startInitch hready rfl hc
      refine ⟨q, v, ?_, hcfg, hv'⟩
      simp only [microSteps, hc, if_true]
      rw [Nat.add_comm, runSteps_succ (step_offersOnly ho h.lines (exec_initch_ok hc) rfl rfl)]
      exact hv
  | shout =>
    obtain ⟨q, v, hv, hcfg, hv'⟩ := run_startShift hready rfl
    refine ⟨q, v, ?_, hcfg, hv'⟩
    simp only [microSteps]
    rw [Nat.add_comm, runSteps_succ (step_offersOnly ho h.lines (exec_shout _) rfl rfl)]
    exact hv

/-! ### The outputs show the buffer -/

theorem imageByte_congr {a b : List Level} {r : Nat}
    (h : ∀ p < 8, a.getD ((r - 1) * 8 + p) false = b.getD ((r - 1) * 8 + p) false) : imageByte a r = imageByte b r := by
  unfold imageByte
  congr 1
  exact List.map_congr_left fun p hp => by rw [h p (List.mem_range.mp hp)]

/-- After a ShiftOut into a chain that is long enough, the output stage starts with the buffer. -/
theorem shiftOut_q_getD {s : State} (h : ShiftReady s) (hm : s.cfg.m ≤ s.cfg.mExt) {j : Nat} (hj : j < s.cfg.nbits) :
    (shiftOut s).chain.q.getD j false = s.buf.getD j false := by
  obtain ⟨hsh, -⟩ := (chainWf_iff s).mp h.stages
  have hlen := h.buf_length
  have hstage : j < s.chain.sh.length := by
    rw [hsh]; unfold Config.stages; unfold Config.nbits at hj; omega
  simp only [shiftOut_chain h.lines hlen, ExtChain.latch, ExtChain.shiftIn, List.getD_eq_getElem?_getD,
    List.append_assoc]
  rw [List.getElem?_take_of_lt hstage, List.getElem?_append_left (by omega)]

/-- Settles O39: the command runs to a ShiftOut, which puts the buffer at the start of the output stage. -/
theorem outputsShowTheBufferAfterEveryChainCommand : Obligations.OutputsShowTheBufferAfterEveryChainCommand := by
  intro s i h hw hm ho hsteps
  obtain ⟨q, v, hrun, hcfg, hv⟩ := run_chainCommand (h.shiftReady hw) ho hsteps
  obtain ⟨-, -, hbuf, -, -⟩ := shiftOut_frame v
  refine ⟨_, hrun, hv.shiftOut.lines, fun r hr₁ hr₂ => imageByte_congr fun p hp => ?_⟩
  have hj : (r - 1) * 8 + p < v.cfg.nbits := by rw [hcfg]; unfold Config.nbits; omega
  rw [respond_chain, respond_buf, withSeq_chain, withSeq_buf, hbuf, shiftOut_q_getD hv (by rwa [hcfg]) hj]

end Sys2Proof.Machine
end

section
/-! PROOFS, 20_memory.md. The pin decodes range by range (R41, R42), and CFGDIR, PINWR, PINRD on the registers (R44 to R46). -/

namespace Sys2Proof.Machine

/-! ### The pin decodes, range by range (20_memory.md R41 to R43) -/

theorem decodeW_groupA {pin : Byte} (h : 2 ≤ pin.toNat ∧ pin.toNat ≤ 7) : decodeW pin = some (.a, pin.toNat) :=
  decodeW_eq_some.mpr (.inl ⟨rfl, rfl, h⟩)

theorem decodeW_groupB {pin : Byte} (h : 8 ≤ pin.toNat ∧ pin.toNat ≤ 12) : decodeW pin = some (.b, pin.toNat - 8) :=
  decodeW_eq_some.mpr (.inr ⟨rfl, by omega, by omega⟩)

theorem decodeW_eq_none {pin : Byte} (ha : ¬(2 ≤ pin.toNat ∧ pin.toNat ≤ 7)) (hb : ¬(8 ≤ pin.toNat ∧ pin.toNat ≤ 12)) :
    decodeW pin = none := by
  refine Option.eq_none_iff_forall_ne_some.mpr fun ⟨g, k⟩ h => ?_
  rw [decodeW_eq_some] at h
  omega

theorem decodeR_groupA {pin : Byte} (h : 2 ≤ pin.toNat ∧ pin.toNat ≤ 7) : decodeR pin = some (.a, pin.toNat) :=
  decodeR_eq_some.mpr (.inl ⟨rfl, rfl, h⟩)

theorem decodeR_groupB {pin : Byte} (h : 8 ≤ pin.toNat ∧ pin.toNat ≤ 13) : decodeR pin = some (.b, pin.toNat - 8) :=
  decodeR_eq_some.mpr (.inr ⟨rfl, by omega, by omega⟩)

theorem decodeR_eq_none {pin : Byte} (ha : ¬(2 ≤ pin.toNat ∧ pin.toNat ≤ 7)) (hb : ¬(8 ≤ pin.toNat ∧ pin.toNat ≤ 13)) :
    decodeR pin = none := by
  refine Option.eq_none_iff_forall_ne_some.mpr fun ⟨g, k⟩ h => ?_
  rw [decodeR_eq_some] at h
  omega

/-! ### What the port primitives return and store -/

theorem pinDir_valid {pin : Byte} {g : Group} {k : Nat} (h : decodeW pin = some (g, k)) (v : Level) (s : State) :
    (pinDir pin v s).1 = .done ∧ (pinDir pin v s).2.ports = memWrite g.dirReg k v s.ports := by
  simp only [pinDir, h, and_self]

theorem pinDir_invalid {pin : Byte} (h : decodeW pin = none) (v : Level) (s : State) :
    (pinDir pin v s).1 = .ignored ∧ (pinDir pin v s).2.ports = s.ports := by
  simp only [pinDir, h, emit_ports, and_self]

theorem pinWrite_valid {pin : Byte} {g : Group} {k : Nat} (h : decodeW pin = some (g, k)) (v : Level) (s : State) :
    (pinWrite pin v s).1 = .done ∧ (pinWrite pin v s).2.ports = memWrite g.outReg k v s.ports := by
  simp only [pinWrite, h, and_self]

theorem pinWrite_invalid {pin : Byte} (h : decodeW pin = none) (v : Level) (s : State) :
    (pinWrite pin v s).1 = .ignored ∧ (pinWrite pin v s).2.ports = s.ports := by
  simp only [pinWrite, h, emit_ports, and_self]

/-! ### CFGDIR and PINWR (20_memory.md R44, R45) -/

theorem pinDir_frame (pin : Byte) (v : Level) (s : State) :
    (pinDir pin v s).2 =
      { s with
        ports := { s.ports with dira := (pinDir pin v s).2.ports.dira, dirb := (pinDir pin v s).2.ports.dirb }
        trace := (pinDir pin v s).2.trace } := by
  rw [← pinDir_ports_frame, pinDir_trace, ← pinDir_eq]

theorem pinWrite_frame (pin : Byte) (v : Level) (s : State) :
    (pinWrite pin v s).2 =
      { s with
        ports := { s.ports with outa := (pinWrite pin v s).2.ports.outa, outb := (pinWrite pin v s).2.ports.outb }
        trace := (pinWrite pin v s).2.trace } := by
  rw [← pinWrite_ports_frame, pinWrite_trace, ← pinWrite_eq]

/-- Settles O17: the decode of the pin's range gives the group and the bit that `PinDir` writes. -/
theorem cfgdirWritesOneDirectionBit : Obligations.CfgdirWritesOneDirectionBit := by
  intro pin v s
  refine ⟨_, exec_cfgdir pin v s, pinDir_trace pin v s, congrArg (respond _) (pinDir_frame pin v s), ?_⟩
  simp only [respond_rsp, respond_ports]
  split_ifs with ha hb
  · obtain ⟨hdone, hports⟩ := pinDir_valid (decodeW_groupA ha) v s
    rw [hdone, hports]
    exact ⟨rfl, rfl, fun j _ => setBit_getLsbD _ _ _ _ (by omega)⟩
  · obtain ⟨hdone, hports⟩ := pinDir_valid (decodeW_groupB hb) v s
    rw [hdone, hports]
    exact ⟨rfl, rfl, fun j _ => setBit_getLsbD _ _ _ _ (by omega)⟩
  · obtain ⟨hignored, hports⟩ := pinDir_invalid (decodeW_eq_none ha hb) v s
    rw [hignored, hports]
    exact ⟨rfl, rfl⟩

/-- Settles O18: the decode of the pin's range gives the group and the bit that `PinWrite` writes. -/
theorem pinwrWritesOneOutputBit : Obligations.PinwrWritesOneOutputBit := by
  intro pin v s
  refine ⟨_, exec_pinwr pin v s, pinWrite_trace pin v s, congrArg (respond _) (pinWrite_frame pin v s), ?_⟩
  simp only [respond_rsp, respond_ports]
  split_ifs with ha hb
  · obtain ⟨hdone, hports⟩ := pinWrite_valid (decodeW_groupA ha) v s
    rw [hdone, hports]
    exact ⟨rfl, rfl, fun j _ => setBit_getLsbD _ _ _ _ (by omega)⟩
  · obtain ⟨hdone, hports⟩ := pinWrite_valid (decodeW_groupB hb) v s
    rw [hdone, hports]
    exact ⟨rfl, rfl, fun j _ => setBit_getLsbD _ _ _ _ (by omega)⟩
  · obtain ⟨hignored, hports⟩ := pinWrite_invalid (decodeW_eq_none ha hb) v s
    rw [hignored, hports]
    exact ⟨rfl, rfl⟩

/-! ### PINRD (20_memory.md R46) -/

theorem sensed_frame (g : Group) (k : Nat) (s : State) :
    (sensed g k s).2 = { s with draws := (sensed g k s).2.draws } := by
  unfold sensed; split <;> rfl

/-- The level of a pad and the draws it takes (10_state.md R28). -/
theorem sensed_level (g : Group) (k : Nat) (s : State) :
    if dirBit s.ports g k then (sensed g k s).1 = Config.draw s.draws ∧ (sensed g k s).2.draws = s.draws + 1
    else (sensed g k s).1 = envLevel s.ports g k ∧ (sensed g k s).2.draws = s.draws := by
  unfold sensed; split <;> exact ⟨rfl, rfl⟩

theorem memRead_inReg (g : Group) (k : Nat) (s : State) : memRead g.inReg k s = sensed g k s := by
  cases g <;> rfl

theorem levelValue_eq (v : Level) : levelValue v = if v then 1 else 0 := by
  cases v <;> rfl

/-- PINRD of a pin that reads the pad `Gk`. -/
theorem exec_pinrd_valid {pin : Byte} {g : Group} {k : Nat} (h : decodeR pin = some (g, k)) (s : State) :
    exec (.pinrd pin) s =
      .next (respond (.ok (if (sensed g k s).1 then 1 else 0)) (emit (.rd pin (sensed g k s).1) (sensed g k s).2)) := by
  simp only [exec_pinrd, pinRead, h, memRead_inReg, PinLevel.response, levelValue_eq]

theorem exec_pinrd_invalid {pin : Byte} (h : decodeR pin = none) (s : State) :
    exec (.pinrd pin) s = .next (respond (.pinIgnored 0#16) (emit (.rd pin false) s)) := by
  simp only [exec_pinrd, pinRead, h]; rfl

/-- A read of the pad `Gk` changes the draw counter, the trace and the response only. -/
theorem respond_emit_sensed (q : Response) (e : Event) (g : Group) (k : Nat) (s : State) :
    respond q (emit e (sensed g k s).2) =
      { s with rsp := some q, trace := s.trace ++ [e], draws := (sensed g k s).2.draws } := by
  rw [sensed_frame]; rfl

/-- Settles O19: the decode of the pin's range gives the pad whose level `PinRead` senses. -/
theorem pinrdReturnsTheSensedLevel : Obligations.PinrdReturnsTheSensedLevel := by
  intro pin s
  by_cases ha : 2 ≤ pin.toNat ∧ pin.toNat ≤ 7
  · refine ⟨_, _, exec_pinrd_valid (decodeR_groupA ha) s, respond_emit_sensed .., ?_⟩
    rw [if_pos ha]
    exact ⟨rfl, sensed_level .a pin.toNat s⟩
  by_cases hb : 8 ≤ pin.toNat ∧ pin.toNat ≤ 13
  · refine ⟨_, _, exec_pinrd_valid (decodeR_groupB hb) s, respond_emit_sensed .., ?_⟩
    rw [if_neg ha, if_pos hb]
    exact ⟨rfl, sensed_level .b (pin.toNat - 8) s⟩
  · refine ⟨_, _, exec_pinrd_invalid (decodeR_eq_none ha hb) s, rfl, ?_⟩
    rw [if_neg ha, if_neg hb]
    exact ⟨rfl, rfl, rfl⟩

end Sys2Proof.Machine
end

section
/-! PROOFS, 20_memory.md. Repeated port writes (R48), a change of the pads (R51), the one port bit of a micro-step (R47), and
its one event (R51). -/

namespace Sys2Proof.Machine

/-! ### Writing the same bit twice (20_memory.md R48) -/

theorem memWrite_same (r : PortReg) {k : Nat} (v : Level) (p : Ports) (hk : k < 8) :
    memWrite r k v (memWrite r k v p) = memWrite r k v p := by
  cases r <;> simp only [memWrite, setBit_same _ _ _ hk]

theorem pinDir_pinDir_ports (pin : Byte) (v : Level) (s : State) :
    (pinDir pin v (pinDir pin v s).2).2.ports = (pinDir pin v s).2.ports := by
  rcases h : decodeW pin with _ | ⟨g, k⟩
  · exact (pinDir_invalid h v _).2
  · rw [(pinDir_valid h v _).2, (pinDir_valid h v s).2, memWrite_same _ _ _ (decodeW_lt h)]

theorem pinWrite_pinWrite_ports (pin : Byte) (v : Level) (s : State) :
    (pinWrite pin v (pinWrite pin v s).2).2.ports = (pinWrite pin v s).2.ports := by
  rcases h : decodeW pin with _ | ⟨g, k⟩
  · exact (pinWrite_invalid h v _).2
  · rw [(pinWrite_valid h v _).2, (pinWrite_valid h v s).2, memWrite_same _ _ _ (decodeW_lt h)]

/-- Settles O21: the second write stores what is stored already, so no line of the chain moves. -/
theorem portWritesAreIdempotentOnTheRegisters : Obligations.PortWritesAreIdempotentOnTheRegisters := by
  refine ⟨pinRead_frame, fun pin v s => ⟨pinDir_pinDir_ports pin v s, by simp⟩, fun pin v s => ?_, bufWrite_getElem?⟩
  refine ⟨pinWrite_pinWrite_ports pin v s, by simp, fun hw => ?_⟩
  rw [chainAfter_same (pinWrite_cfg ..) (pinWrite_pinWrite_ports pin v s) hw, pinWrite_chain]

/-! ### A change of the pads (20_memory.md R51) -/

/-- The block's drive of a line does not depend on the level the environment puts on the pad (10_state.md R28). -/
theorem lineDrive_envPads (pin a b : Byte) (s : State) :
    lineDrive pin (envPads a b s).ports = lineDrive pin s.ports := by
  unfold lineDrive
  rcases decodeW pin with _ | ⟨_ | _, k⟩ <;> rfl

/-- Where a move leaves the configuration and every line alone and `WF_CHAIN` holds, the chain does not move. -/
theorem chainAfter_of_lineDrive {b s : State} (hc : s.cfg = b.cfg)
    (hl : ∀ pin, lineDrive pin s.ports = lineDrive pin b.ports) (hw : wfChain b = true) : chainAfter b s = s.chain := by
  have hw' : wfChain s = true := by simpa only [wfChain, hc, hl] using hw
  simp [chainAfter, hw, hw', hc, hl, rising_self, ExtChain.react]

/-- Settles O16: the move stores the two pad bytes, and no line of the chain depends on them. -/
theorem padMoveChangesOnlyThePadLevels : Obligations.PadMoveChangesOnlyThePadLevels := by
  intro s a b rest hi
  have hstep : step s = .next (settle s (envPads a b { s with inputs := rest })) := by
    rw [step_eq_settle_move, move, hi, settleOutcome_next]
  exact ⟨_, hstep, rfl, chainAfter_of_lineDrive rfl fun pin => lineDrive_envPads pin a b { s with inputs := rest }⟩

/-! ### The port bit and the event of an accepted command (20_memory.md R47, R51) -/

/-- What the accepting micro-step of a command does to the port registers and the trace: CFGDIR writes a direction bit, PINWR an
output bit, PINRD none, each with its one event; a chain command touches neither. -/
def PinEffect (i : Instr) (s t : State) : Prop :=
  match i with
  | .cfgdir pin v => WritesDirBit pin v s.ports t.ports ∧ t.trace = s.trace ++ [.dir pin v]
  | .pinwr pin v => WritesOutBit pin v s.ports t.ports ∧ t.trace = s.trace ++ [.wr pin v]
  | .pinrd pin => t.ports = s.ports ∧ ∃ v, t.trace = s.trace ++ [.rd pin v]
  | _ => t.ports = s.ports ∧ t.trace = s.trace

/-- The effect is one on the ports and the trace alone. -/
theorem PinEffect.congr {i : Instr} {s t s' t' : State} (h : PinEffect i s t) (hs : s'.ports = s.ports)
    (hs' : s'.trace = s.trace) (ht : t'.ports = t.ports) (ht' : t'.trace = t.trace) : PinEffect i s' t' := by
  simpa only [PinEffect, hs, hs', ht, ht'] using h

theorem pinRead_ports (pin : Byte) (s : State) : (pinRead pin s).2.ports = s.ports := by
  rw [pinRead_frame]

theorem exec_pinEffect {i : Instr} {s t : State} (h : exec i s = .next t) : PinEffect i s t := by
  cases i with
  | cfgdir pin v => injection h with h; subst h; exact ⟨pinDir_writesDirBit pin v s, pinDir_trace pin v s⟩
  | pinwr pin v => injection h with h; subst h; exact ⟨pinWrite_writesOutBit pin v s, pinWrite_trace pin v s⟩
  | pinrd pin => injection h with h; subst h; exact ⟨pinRead_ports pin s, pinRead_trace pin s⟩
  | abspos r p =>
    cases hc : indexCheck s.cfg r p
    · rw [exec_abspos_range hc] at h; injection h with h; subst h; exact ⟨rfl, rfl⟩
    · rw [exec_abspos_ok hc] at h; injection h with h; subst h; exact ⟨rfl, rfl⟩
  | regwr r p v =>
    cases hc : indexCheck s.cfg r p
    · rw [exec_regwr_range hc] at h; injection h with h; subst h; exact ⟨rfl, rfl⟩
    · rw [exec_regwr_ok hc] at h; injection h with h; subst h; exact ⟨rfl, rfl⟩
  | initch r =>
    cases hc : indexCheck s.cfg r 0#8
    · rw [exec_initch_range hc] at h; injection h with h; subst h; exact ⟨rfl, rfl⟩
    · rw [exec_initch_ok hc] at h; injection h with h; subst h; exact ⟨rfl, rfl⟩
  | shout => injection h with h; subst h; exact ⟨rfl, rfl⟩

/-! ### The port bit of a row of the sequencer (41_shift_chain.md R97) -/

theorem seqStep_latchLo_writes {s t : State} (hp : s.seq.phase = .latchLo) (h : seqStep s = .next t) :
    WritesOutBit s.cfg.pinStcp false s.ports t.ports := by
  rw [seqStep_latchLo hp] at h
  injection h with h; subst h
  exact pinWrite_writesOutBit s.cfg.pinStcp false s

theorem seqStep_clkLo_writes {s t : State} (hp : s.seq.phase = .clkLo) (h : seqStep s = .next t) :
    WritesOutBit s.cfg.pinShcp false s.ports t.ports := by
  rw [seqStep_clkLo hp] at h
  injection h with h; subst h
  exact pinWrite_writesOutBit s.cfg.pinShcp false s

theorem seqStep_data_writes {s t : State} (hp : s.seq.phase = .data) (h : seqStep s = .next t) :
    WritesOutBit s.cfg.pinDs
      (if s.seq.idx.toNat = s.cfg.nbits then Config.draw s.draws else s.buf.getD s.seq.idx.toNat false)
      s.ports t.ports := by
  by_cases hn : s.seq.idx.toNat = s.cfg.nbits
  · rw [seqStep_pad hp hn] at h
    injection h with h; subst h
    rw [if_pos hn]
    exact pinWrite_writesOutBit s.cfg.pinDs (Config.draw s.draws) (drawLevel s).2
  · cases hd : s.buf[s.seq.idx.toNat]? with
    | none => rw [seqStep_noBit hp hn hd] at h; cases h
    | some d =>
      rw [seqStep_data hp hn hd] at h
      injection h with h; subst h
      rw [if_neg hn, List.getD_eq_getElem?_getD, hd]
      exact pinWrite_writesOutBit s.cfg.pinDs d s

theorem seqStep_clkHi_writes {s t : State} (hp : s.seq.phase = .clkHi) (h : seqStep s = .next t) :
    WritesOutBit s.cfg.pinShcp true s.ports t.ports := by
  rw [seqStep_clkHi hp, seqClkHi] at h
  injection h with h; subst h
  split <;> exact pinWrite_writesOutBit s.cfg.pinShcp true s

theorem seqStep_latchHi_writes {s t : State} (hp : s.seq.phase = .latchHi) (h : seqStep s = .next t) :
    WritesOutBit s.cfg.pinStcp true s.ports t.ports := by
  by_cases hn : s.seq.iact = true ∧ s.seq.ipos.toNat < 7
  · cases hc : indexCheck s.cfg s.seq.ireg 0#8 with
    | false => rw [seqStep_noRegister hp hn hc] at h; cases h
    | true =>
      rw [seqStep_nextBit hp hn.1 hn.2 hc] at h
      injection h with h; subst h
      exact pinWrite_writesOutBit s.cfg.pinStcp true s
  · rw [seqStep_done hp hn] at h
    injection h with h; subst h
    exact pinWrite_writesOutBit s.cfg.pinStcp true s

/-! ### The port bit of a step -/

/-- While SRSER is busy, a step other than a reset and a change of the pads does to the ports what the micro-step of the
sequencer does. -/
theorem seqStep_of_step_busy {s t : State} (h : step s = .next t) (hb : busy s = true)
    (hreset : ∀ rest, s.inputs ≠ .reset :: rest) (hpads : ∀ a b rest, s.inputs ≠ .pads a b :: rest) :
    ∃ u, seqStep s = .next u ∧ t.ports = u.ports := by
  rcases step_cases h with ⟨u, rfl, hu, -⟩ | ⟨rest, u, -, rfl, hu⟩ | ⟨a, b, rest, hi, -⟩ | ⟨rest, hi, -⟩ | ⟨hidle, -⟩
  · exact ⟨u, hu, rfl⟩
  · exact ⟨_, seqStep_withInputs hu s.inputs, rfl⟩
  · exact absurd hi (hpads a b rest)
  · exact absurd hi (hreset rest)
  · rw [hb] at hidle; cases hidle

/-- An idle SRSER takes the accepting micro-step of the command it is offered; offered none, it writes no port bit. -/
theorem step_idle_pinEffect {s t : State} (h : step s = .next t) (hp : s.seq.phase = .idle)
    (hreset : ∀ rest, s.inputs ≠ .reset :: rest) (hpads : ∀ a b rest, s.inputs ≠ .pads a b :: rest) :
    (∃ i, (cmdOffered s).map decode = some (.ok i) ∧ PinEffect i s t) ∨
    ((∀ i, (cmdOffered s).map decode ≠ some (.ok i)) ∧ t.ports = s.ports) := by
  have hidle := (busy_false_iff s).mpr hp
  rcases step_cases h with ⟨u, rfl, hu, hi | ⟨hb, -⟩⟩ | ⟨rest, u, hi, rfl, hu⟩ | ⟨a, b, rest, hi, -⟩ | ⟨rest, hi, -⟩ |
    ⟨-, w, rest, hi, ⟨i, u, hd, hu, rfl⟩ | ⟨e, hd, rfl⟩⟩
  · rw [seqStep_idle hp] at hu
    injection hu with hu; subst hu
    exact .inr ⟨by simp [cmdOffered, hi], rfl⟩
  · rw [hb] at hidle; cases hidle
  · rw [seqStep_idle (s := { s with inputs := rest }) hp] at hu
    injection hu with hu; subst hu
    exact .inr ⟨by simp [cmdOffered, hi], rfl⟩
  · exact absurd hi (hpads a b rest)
  · exact absurd hi (hreset rest)
  · exact .inl ⟨i, by simp [cmdOffered, hi, hd], (exec_pinEffect hu).congr rfl rfl rfl rfl⟩
  · exact .inr ⟨by simp [cmdOffered, hi, hd], rfl⟩

/-- Settles O23: phase by phase, the row of the table writes its control pin; an idle SRSER writes the bit of the command it
accepts. -/
theorem everyMicroStepWritesAtMostOnePortBit : Obligations.EveryMicroStepWritesAtMostOnePortBit := by
  intro s t h hreset hpads
  have hseq : s.seq.phase ≠ .idle → ∃ u, seqStep s = .next u ∧ t.ports = u.ports := fun hb =>
    seqStep_of_step_busy h ((busy_iff s).mpr hb) hreset hpads
  cases hp : s.seq.phase with
  | idle =>
    rcases step_idle_pinEffect h hp hreset hpads with ⟨i, hd, hw⟩ | ⟨hno, hports⟩
    · simp only [hd]
      cases i with
      | cfgdir | pinwr | pinrd | abspos | regwr | initch | shout => exact hw.1
    · dsimp only
      split
      · exact absurd ‹_› (hno _)
      · exact absurd ‹_› (hno _)
      · exact hports
  | latchLo =>
    obtain ⟨u, hu, hports⟩ := hseq (by simp [hp])
    rw [hports]
    exact seqStep_latchLo_writes hp hu
  | clkLo =>
    obtain ⟨u, hu, hports⟩ := hseq (by simp [hp])
    rw [hports]
    exact seqStep_clkLo_writes hp hu
  | data =>
    obtain ⟨u, hu, hports⟩ := hseq (by simp [hp])
    rw [hports]
    exact seqStep_data_writes hp hu
  | clkHi =>
    obtain ⟨u, hu, hports⟩ := hseq (by simp [hp])
    rw [hports]
    exact seqStep_clkHi_writes hp hu
  | latchHi =>
    obtain ⟨u, hu, hports⟩ := hseq (by simp [hp])
    rw [hports]
    exact seqStep_latchHi_writes hp hu

/-! ### The event of a step (20_memory.md R51) -/

/-- The trace `after` is `before` with at most one event appended. -/
def AppendsAtMostOneEvent (before after : List Event) : Prop := after = before ∨ ∃ e, after = before ++ [e]

theorem seqStep_trace {s t : State} (h : seqStep s = .next t) : AppendsAtMostOneEvent s.trace t.trace := by
  rcases seqStep_cases h with ⟨-, rfl⟩ | ⟨-, pin, v, -, -, -, -, htrace, -⟩
  · exact .inl rfl
  · exact .inr ⟨_, htrace⟩

theorem exec_trace {i : Instr} {s t : State} (h : exec i s = .next t) : AppendsAtMostOneEvent s.trace t.trace := by
  have heffect := exec_pinEffect h
  cases i with
  | cfgdir | pinwr => exact .inr ⟨_, heffect.2⟩
  | pinrd pin =>
    obtain ⟨-, v, htrace⟩ := heffect
    exact .inr ⟨_, htrace⟩
  | abspos | regwr | initch | shout => exact .inl heffect.2

/-- Settles O46: a micro-step and an accepted command issue at most one event each, a reset, a change of the pads and an illegal
word none; the chain's reaction leaves the trace alone. -/
theorem everyStepAppendsAtMostOneEvent : Obligations.EveryStepAppendsAtMostOneEvent := by
  intro s t h
  rcases step_cases h with ⟨u, rfl, hu, -⟩ | ⟨rest, u, -, rfl, hu⟩ | ⟨a, b, rest, -, rfl⟩ | ⟨rest, -, rfl⟩ |
    ⟨-, w, rest, -, ⟨i, u, -, hu, rfl⟩ | ⟨e, -, rfl⟩⟩
  · exact (seqStep_trace hu :)
  · exact (seqStep_trace hu :)
  · exact .inl rfl
  · exact .inl rfl
  · exact (exec_trace hu :)
  · exact .inl rfl

end Sys2Proof.Machine
end

section
/-! PROOFS, 30_encoding.md. The decoder and the encoder as inverses of each other and what follows for the opcode map, the
must-be-zero fields and the operands (R61 to R66); response words (R67, R68); pseudo-instructions (R70). -/

namespace Sys2Proof

/-! ### A command's row decides its word (R62, R64) -/

theorem rowOf_instrOfFields (w : Word) (i : Instr) : rowOf (instrOfFields w i) = rowOf i := by
  cases i <;> rfl

/-- A bit outside the mask belongs to an operand, so encoding a word's own fields gives that bit of the word. -/
theorem encode_instrOfFields_getLsbD (w : Word) (i : Instr) (j : Fin 32) (hj : (rowOf i).mask.getLsbD j = false) :
    (encode (instrOfFields w i)).getLsbD j = w.getLsbD j := by
  cases i
  all_goals
    simp only [rowOf, instrOfFields, encode, layout_getLsbD, fieldA, fieldB, fieldV] at hj ⊢
    fin_cases j <;> simp_all [rowCfgdir, rowPinwr, rowPinrd, rowAbspos, rowRegwr, rowInitch, rowShout]

/-- A word lies in a command's row exactly when it is the word of that command with the word's own fields as operands: the
row's value gives the bits under the mask, the fields give the others. -/
theorem encode_instrOfFields_eq_iff (w : Word) (i : Instr) :
    encode (instrOfFields w i) = w ↔ (rowOf i).hits w = true := by
  have henc := encode_hits_rowOf (instrOfFields w i)
  rw [rowOf_instrOfFields] at henc
  constructor
  · intro h
    rwa [h] at henc
  · intro hw
    rw [hits_iff, and_mask_eq_iff] at henc hw
    refine BitVec.eq_of_getLsbD_eq fun j hj => ?_
    cases hm : (rowOf i).mask.getLsbD j
    · exact encode_instrOfFields_getLsbD w i ⟨j, hj⟩ hm
    · have hbit := (henc ⟨j, hj⟩).trans (hw ⟨j, hj⟩).symm
      simpa only [hm, Bool.and_true] using hbit

/-- The decoder answers a command exactly on the word of that command. -/
theorem decode_eq_ok_iff {w : Word} {i : Instr} : decode w = .ok i ↔ encode i = w := by
  constructor
  · intro h
    obtain ⟨hrow, -, hi⟩ := decode_eq_ok h
    rw [hi]
    exact (encode_instrOfFields_eq_iff w i).mpr hrow
  · rintro rfl
    exact decode_encode i

/-- Settles O1: an encoded word lies in its command's row, and its fields are the operands. -/
theorem decodeOfEncodeIsTheCommand : Obligations.DecodeOfEncodeIsTheCommand := decode_encode

/-- Settles O2: the row fixes every bit under its mask, and the operands are the bits outside it. -/
theorem legalWordIsTheEncodingOfItsCommand : Obligations.LegalWordIsTheEncodingOfItsCommand :=
  fun _ _ => decode_eq_ok_iff.mp

/-! ### The opcode map (R64) -/

theorem exists_rowOf_eq {row : OpRow} (h : row ∈ opTable) : ∃ i, rowOf i = row := by
  simp only [opTable, List.mem_cons, List.not_mem_nil, or_false] at h
  rcases h with rfl | rfl | rfl | rfl | rfl | rfl | rfl
  · exact ⟨.cfgdir 0 false, rfl⟩
  · exact ⟨.pinwr 0 false, rfl⟩
  · exact ⟨.pinrd 0, rfl⟩
  · exact ⟨.abspos 0 0, rfl⟩
  · exact ⟨.regwr 0 0 false, rfl⟩
  · exact ⟨.initch 0, rfl⟩
  · exact ⟨.shout, rfl⟩

theorem matches_row_iff {row : OpRow} (hrow : row ∈ opTable) (w : Word) :
    w &&& row.mask = row.value ↔ ∃ i, decode w = .ok i ∧ rowOf i = row := by
  rw [← hits_iff]
  constructor
  · intro h
    obtain ⟨i, rfl⟩ := exists_rowOf_eq hrow
    exact ⟨instrOfFields w i, decode_eq_ok_iff.mpr ((encode_instrOfFields_eq_iff w i).mpr h), rowOf_instrOfFields w i⟩
  · rintro ⟨i, hd, rfl⟩
    exact (decode_eq_ok hd).1

/-- Settles O3: a match gives the command the word decodes to, and a word decodes to one command only, which has one row. -/
theorem wordIsTheCommandExactlyWhenItsRowMatches : Obligations.WordIsTheCommandExactlyWhenItsRowMatches := by
  refine ⟨rfl, fun w row hrow => ⟨matches_row_iff hrow w, fun row' hrow' hw hw' => ?_⟩⟩
  obtain ⟨i, hd, rfl⟩ := (matches_row_iff hrow w).mp hw
  obtain ⟨i', hd', rfl⟩ := (matches_row_iff hrow' w).mp hw'
  obtain rfl : i' = i := Except.ok.inj (hd'.symm.trans hd)
  rfl

/-! ### The fields that must be 0 (R61, R62, R65) -/

theorem layout_reservedHigh (op : BitVec 4) (a b : Byte) (v : Level) : (layout op a b v).extractLsb' 24 4 = 0#4 := by
  ext j hj
  rw [BitVec.getElem_extractLsb', layout_getLsbD, if_neg (by omega), if_neg (by omega), if_neg (by omega),
    if_neg (by omega), if_pos (by omega), BitVec.getElem_zero]

theorem layout_reservedLow (op : BitVec 4) (a b : Byte) (v : Level) : (layout op a b v).extractLsb' 1 7 = 0#7 := by
  ext j hj
  rw [BitVec.getElem_extractLsb', layout_getLsbD, if_neg (by omega), if_pos (by omega), BitVec.getElem_zero]

theorem getLsbD_of_extractLsb'_eq_zero {w : Word} {first len j : Nat} (h : w.extractLsb' first len = 0#len)
    (hj : first ≤ j ∧ j < first + len) : w.getLsbD j = false := by
  obtain ⟨k, rfl⟩ := Nat.exists_eq_add_of_le hj.1
  have hk : k < len := by omega
  simpa [BitVec.getLsbD_extractLsb', hk] using congrArg (·.getLsbD k) h

/-- The shared layout cuts a word into its four fields and the two reserved ones. -/
theorem layout_fields {w : Word} (hhigh : w.extractLsb' 24 4 = 0#4) (hlow : w.extractLsb' 1 7 = 0#7) :
    layout (fieldOp w) (fieldA w) (fieldB w) (fieldV w) = w := by
  refine BitVec.eq_of_getLsbD_eq fun j hj => ?_
  rw [layout_getLsbD]
  simp only [fieldOp, fieldA, fieldB, fieldV, BitVec.getLsbD_extractLsb']
  split_ifs with h0 h8 h16 h24 h28
  · rw [h0]
  · exact (getLsbD_of_extractLsb'_eq_zero hlow (by omega)).symm
  · rw [decide_eq_true (by omega), Bool.true_and, Nat.add_sub_cancel' (by omega)]
  · rw [decide_eq_true (by omega), Bool.true_and, Nat.add_sub_cancel' (by omega)]
  · exact (getLsbD_of_extractLsb'_eq_zero hhigh (by omega)).symm
  · rw [decide_eq_true (by omega), Bool.true_and, Nat.add_sub_cancel' (by omega)]

/-- The fields a legal word has to leave 0, given its opcode: the two reserved ones, and those its format does not use. -/
def UnusedFieldsZero (w : Word) (op : Nat) : Prop :=
  w.extractLsb' 24 4 = 0#4 ∧ w.extractLsb' 1 7 = 0#7 ∧ (op ∈ [1, 2, 3, 6, 7] → fieldB w = 0#8) ∧
    (op ∈ [3, 4, 6, 7] → fieldV w = false) ∧ (op = 7 → fieldA w = 0#8)

theorem encode_unusedFieldsZero (i : Instr) : UnusedFieldsZero (encode i) (rowOf i).op.toNat := by
  cases i <;>
    simp [UnusedFieldsZero, encode, rowOf, layout_reservedHigh, layout_reservedLow, fieldA_layout, fieldB_layout,
      fieldV_layout, rowCfgdir, rowPinwr, rowPinrd, rowAbspos, rowRegwr, rowInitch, rowShout]

theorem rowOf_mem_opTable (i : Instr) : rowOf i ∈ opTable := by
  cases i <;> simp [rowOf, opTable]

theorem opTable_op_range : ∀ row ∈ opTable, 1 ≤ row.op.toNat ∧ row.op.toNat ≤ 7 := by decide

/-- A word whose opcode is a row's and whose unused fields are 0 is the word of that row's command. -/
theorem encode_instrOfFields_of_unusedFieldsZero {w : Word} {i : Instr} (hop : fieldOp w = (rowOf i).op)
    (hz : UnusedFieldsZero w (rowOf i).op.toNat) : encode (instrOfFields w i) = w := by
  obtain ⟨hhigh, hlow, hb, hv, ha⟩ := hz
  have hw := layout_fields hhigh hlow
  rw [hop] at hw
  cases i with
  | cfgdir | pinwr => rwa [hb (by simp [rowOf, rowCfgdir, rowPinwr])] at hw
  | pinrd | initch =>
    rwa [hb (by simp [rowOf, rowPinrd, rowInitch]), hv (by simp [rowOf, rowPinrd, rowInitch])] at hw
  | abspos => rwa [hv (by simp [rowOf, rowAbspos])] at hw
  | regwr => exact hw
  | shout => rwa [ha rfl, hb (by decide), hv (by decide)] at hw

theorem exists_row_of_op (op : BitVec 4) (h : 1 ≤ op.toNat ∧ op.toNat ≤ 7) : ∃ row ∈ opTable, row.op = op := by
  revert op
  decide

/-- Settles O4: the layout puts a word together from its fields, so a word with the right ones 0 is the word of a command. -/
theorem wordIsLegalExactlyWhenItsUnusedFieldsAreZero : Obligations.WordIsLegalExactlyWhenItsUnusedFieldsAreZero := by
  intro w
  rw [← fieldOp_toNat]
  show _ ↔ (1 ≤ (fieldOp w).toNat ∧ (fieldOp w).toNat ≤ 7) ∧ UnusedFieldsZero w (fieldOp w).toNat
  constructor
  · rintro ⟨i, hd⟩
    obtain ⟨-, hop, -⟩ := decode_eq_ok hd
    obtain rfl := decode_eq_ok_iff.mp hd
    rw [hop]
    exact ⟨opTable_op_range _ (rowOf_mem_opTable i), encode_unusedFieldsZero i⟩
  · rintro ⟨hrange, hz⟩
    obtain ⟨row, hrow, hop⟩ := exists_row_of_op (fieldOp w) hrange
    obtain ⟨i, rfl⟩ := exists_rowOf_eq hrow
    rw [← hop] at hz
    exact ⟨instrOfFields w i, decode_eq_ok_iff.mpr (encode_instrOfFields_of_unusedFieldsZero hop.symm hz)⟩

/-! ### Operands (R63) and the sample words (95_test_vectors.md) -/

theorem fieldA_toNat (w : Word) : (fieldA w).toNat = w.toNat / 2 ^ 16 % 256 := by
  rw [fieldA, BitVec.extractLsb'_toNat, Nat.shiftRight_eq_div_pow]

theorem fieldB_toNat (w : Word) : (fieldB w).toNat = w.toNat / 2 ^ 8 % 256 := by
  rw [fieldB, BitVec.extractLsb'_toNat, Nat.shiftRight_eq_div_pow]

theorem fieldV_toNat (w : Word) : (fieldV w).toNat = w.toNat % 2 := by
  rw [fieldV, BitVec.getLsbD, Nat.testBit_zero]
  rcases Nat.mod_two_eq_zero_or_one w.toNat with h | h <;> rw [h] <;> rfl

/-- Settles O5: the operands a word decodes to are its fields, each of which is a quotient and a remainder of the word. -/
theorem operandsAreTheirFieldsUnscaled : Obligations.OperandsAreTheirFieldsUnscaled := by
  intro w i h
  obtain ⟨-, -, hi⟩ := decode_eq_ok h
  rw [hi]
  cases i with
  | cfgdir | pinwr => exact ⟨fieldA_toNat w, fieldV_toNat w⟩
  | pinrd | initch => exact fieldA_toNat w
  | abspos => exact ⟨fieldA_toNat w, fieldB_toNat w⟩
  | regwr => exact ⟨fieldA_toNat w, fieldB_toNat w, fieldV_toNat w⟩
  | shout => trivial

/-- Settles O6: twelve closed words, each run through the decoder. -/
theorem sampleWordsDecodeAsTheSpecSays : Obligations.SampleWordsDecodeAsTheSpecSays :=
  ⟨rfl, rfl, rfl, rfl, rfl, rfl, rfl, rfl, rfl, rfl, rfl, rfl⟩

end Sys2Proof

namespace Sys2Proof.Machine

/-! ### The response word (R67, R68) -/

theorem responseLayout_toNat (status : BitVec 4) (value : BitVec 16) :
    (status ++ 0#12 ++ value : Word).toNat = status.toNat * 2 ^ 28 + value.toNat := by
  have hvalue : value.toNat < 2 ^ 16 := value.isLt
  rw [BitVec.toNat_append, BitVec.toNat_append, BitVec.toNat_zero, Nat.or_zero, ← Nat.shiftLeft_add_eq_or_of_lt hvalue,
    Nat.shiftLeft_eq, Nat.shiftLeft_eq]
  omega

/-- Settles O7: the status is the top field of the response word and the value the bottom one. -/
theorem responseWordCarriesStatusAndValue : Obligations.ResponseWordCarriesStatusAndValue :=
  ⟨fun v => (responseLayout_toNat 0 v).trans (by simp), responseLayout_toNat 1, rfl, rfl⟩

/-! ### Pseudo-instructions (R70) -/

theorem asmByte_of_lt {n : Nat} (h : n < 256) : asmByte n = some (BitVec.ofNat 8 n) := if_pos h

theorem assemble_cfgdir {p n : Nat} {pin : Byte} {v : Level} (hp : asmByte p = some pin) (hn : asmLevel n = some v) :
    assemble "CFGDIR" [p, n] = some (encode (.cfgdir pin v)) := by
  simp [assemble, hp, hn]

theorem assemble_pinwr {p n : Nat} {pin : Byte} {v : Level} (hp : asmByte p = some pin) (hn : asmLevel n = some v) :
    assemble "PINWR" [p, n] = some (encode (.pinwr pin v)) := by
  simp [assemble, hp, hn]

theorem assemble_regwr {r p n : Nat} {reg pos : Byte} {v : Level} (hr : asmByte r = some reg) (hp : asmByte p = some pos)
    (hn : asmLevel n = some v) : assemble "REGWR" [r, p, n] = some (encode (.regwr reg pos v)) := by
  simp [assemble, hr, hp, hn]

/-- Settles O8: the expansion carries the level that the command's operand 1 or 0 stands for. -/
theorem pseudoInstructionsAssembleToOneCommand : Obligations.PseudoInstructionsAssembleToOneCommand := by
  intro r p
  have houtput : assemble "OUTPUT" [p] = assemble "CFGDIR" [p, 1] := rfl
  have hinput : assemble "INPUT" [p] = assemble "CFGDIR" [p, 0] := rfl
  have hpinhi : assemble "PINHI" [p] = assemble "PINWR" [p, 1] := rfl
  have hpinlo : assemble "PINLO" [p] = assemble "PINWR" [p, 0] := rfl
  have hsetbit : assemble "SETBIT" [r, p] = assemble "REGWR" [r, p, 1] := rfl
  have hclrbit : assemble "CLRBIT" [r, p] = assemble "REGWR" [r, p, 0] := rfl
  have high : asmLevel 1 = some true := rfl
  have low : asmLevel 0 = some false := rfl
  refine ⟨houtput, hinput, hpinhi, hpinlo, hsetbit, hclrbit, fun hp => ?_⟩
  have hpin := asmByte_of_lt hp
  exact ⟨houtput.trans (assemble_cfgdir hpin high), hinput.trans (assemble_cfgdir hpin low),
    hpinhi.trans (assemble_pinwr hpin high), hpinlo.trans (assemble_pinwr hpin low), fun hr =>
      ⟨hsetbit.trans (assemble_regwr (asmByte_of_lt hr) hpin high),
        hclrbit.trans (assemble_regwr (asmByte_of_lt hr) hpin low)⟩⟩

end Sys2Proof.Machine
end

section
/-! PROOFS, 40_port_group.md. The pins do not disturb one another (R81, corner case c). -/

namespace Sys2Proof.Machine

/-! ### A write of one pin, seen from another (20_memory.md R47) -/

section
variable {p q : Byte} {g : Group} {k : Nat} {v : Level} {before after : Ports}

/-- The write is at the bit of `p`, and no other pin reaches that bit. -/
theorem WritesOutBit.keeps_other_pin (h : WritesOutBit p v before after) (hpq : p ≠ q) (hq : decodeW q = some (g, k)) :
    outBit after g k = outBit before g k ∧ dirBit after g k = dirBit before g k := by
  have hp : decodeW p ≠ some (g, k) := fun hp => hpq (decodeW_inj hp hq)
  obtain ⟨hout, hdir⟩ := h.2 g k
  exact ⟨hout.trans (if_neg hp), hdir⟩

theorem WritesDirBit.keeps_other_pin (h : WritesDirBit p v before after) (hpq : p ≠ q) (hq : decodeW q = some (g, k)) :
    outBit after g k = outBit before g k ∧ dirBit after g k = dirBit before g k := by
  have hp : decodeW p ≠ some (g, k) := fun hp => hpq (decodeW_inj hp hq)
  obtain ⟨hdir, hout⟩ := h.2 g k
  exact ⟨hout, hdir.trans (if_neg hp)⟩

end

/-- Settles O20: PINWR and CFGDIR each write a bit of their own pin, which is not one of another pin's. -/
theorem onePinNeverPerturbsAnother : Obligations.OnePinNeverPerturbsAnother := by
  intro p q v s t hpq hexec g k hq
  rcases hexec with hpinwr | hcfgdir
  · have hwrites : WritesOutBit p v s.ports t.ports := (exec_pinEffect hpinwr).1
    exact hwrites.keeps_other_pin hpq hq
  · have hwrites : WritesDirBit p v s.ports t.ports := (exec_pinEffect hcfgdir).1
    exact hwrites.keeps_other_pin hpq hq

end Sys2Proof.Machine
end

section
/-! PROOFS, 41_shift_chain.md. The step that accepts a command and the step in which none is offered (R97), the index
arithmetic (R90, R99), ABSPOS (R91), and the accepting micro-steps of REGWR, INITCH and SHOUT (R92, R93, R95). -/

namespace Sys2Proof.Machine

/-! ### The accepting step and the idle move (R97) -/

/-- Settles O9: the word at the head of the moves is accepted, and the decoder gives its command. -/
theorem idleStepRunsTheDecodedCommand : Obligations.IdleStepRunsTheDecodedCommand :=
  fun _ _ _ _ => step_offer

/-- The word that `withFetchWord` places is the command's own: its 32 bits lose nothing on the way. -/
theorem withFetchWord_encode (s : State) (i : Instr) :
    s.withFetchWord 32 (encode i).toNat =
      { s with seq := { s.seq with phase := .idle }, inputs := .offer (encode i) :: s.inputs } := by
  rw [State.withFetchWord, Nat.mod_eq_of_lt (encode i).isLt, BitVec.ofNat_toNat, BitVec.setWidth_eq]

/-- Settles O10: the placed word is an offer to an idle SRSER, and the decoder undoes the encoder. -/
theorem placedWordIsRunByTheNextStep : Obligations.PlacedWordIsRunByTheNextStep := by
  intro s i
  rw [withFetchWord_encode, step_offer rfl rfl (decode_encode i)]
  exact settleOutcome_withInputs { s with seq := { s.seq with phase := .idle } } _ _

/-- Settles O49: neither the micro-step nor the chain's reaction reads the moves to come. -/
theorem idleMoveIsOneMicroStep : Obligations.IdleMoveIsOneMicroStep := by
  intro s t rest hi h
  rw [step_eq_settle_move, settleOutcome_eq_next] at h
  obtain ⟨u, hu, rfl⟩ := h
  have hmove : move s = .next { u with inputs := rest } := by
    rw [move, hi]
    exact seqStep_withInputs hu rest
  rw [step_eq_settle_move, hmove]
  rfl

/-! ### Index arithmetic (R90, R99) -/

section
variable {c : Config} {r p : Byte}

theorem absPos_lt (h : indexCheck c r p = true) : absPos r p < c.nbits := by
  obtain ⟨hr, hm, hp⟩ := (indexCheck_iff c r p).mp h
  unfold absPos Config.nbits
  omega

/-- The position as the bits of `r - 1` followed by the low three bits of `p`. -/
theorem append_toNat_eq_absPos (h : indexCheck c r p = true) :
    ((r - 1) ++ p.extractLsb' 0 3 : BitVec 11).toNat = absPos r p := by
  obtain ⟨hr, -, hp⟩ := (indexCheck_iff c r p).mp h
  have hreg : (r - 1).toNat = r.toNat - 1 := by bv_omega
  have hlow : (p.extractLsb' 0 3).toNat = p.toNat := by
    rw [BitVec.extractLsb'_toNat, Nat.shiftRight_zero]
    exact Nat.mod_eq_of_lt (by omega)
  rw [BitVec.toNat_append, ← Nat.shiftLeft_add_eq_or_of_lt (BitVec.isLt _), Nat.shiftLeft_eq, hreg, hlow, absPos]

/-- The inverse of the position (R90). -/
theorem absPos_inverse (h : indexCheck c r p = true) :
    r.toNat = absPos r p / 8 + 1 ∧ p.toNat = absPos r p % 8 := by
  obtain ⟨hr, -, hp⟩ := (indexCheck_iff c r p).mp h
  unfold absPos
  omega

end

theorem absPos_injective {c : Config} {r p r' p' : Byte} (h : indexCheck c r p = true)
    (h' : indexCheck c r' p' = true) (heq : absPos r p = absPos r' p') : r = r' ∧ p = p' := by
  obtain ⟨hr, hp⟩ := absPos_inverse h
  obtain ⟨hr', hp'⟩ := absPos_inverse h'
  exact ⟨BitVec.eq_of_toNat_eq (by rw [hr, hr', heq]), BitVec.eq_of_toNat_eq (by rw [hp, hp', heq])⟩

/-- Every index of the buffer is a position: a register index fits its byte, since there are at most 255 registers. -/
theorem exists_absPos_eq {c : Config} (hc : c.wf = true) {i : Nat} (hi : i < c.nbits) :
    ∃ r p, indexCheck c r p = true ∧ absPos r p = i := by
  obtain ⟨-, hm, -⟩ := (Config.wf_iff c).mp hc
  unfold Config.nbits at hi
  have hr : (BitVec.ofNat 8 (i / 8 + 1)).toNat = i / 8 + 1 := by
    rw [BitVec.toNat_ofNat]; exact Nat.mod_eq_of_lt (by omega)
  have hp : (BitVec.ofNat 8 (i % 8)).toNat = i % 8 := by
    rw [BitVec.toNat_ofNat]; exact Nat.mod_eq_of_lt (by omega)
  refine ⟨BitVec.ofNat 8 (i / 8 + 1), BitVec.ofNat 8 (i % 8), ?_, ?_⟩
  · rw [indexCheck_iff, hr, hp]; omega
  · rw [absPos, hr, hp]; omega

/-- Settles O25: division by 8 with remainder undoes the position, and reaches every index. -/
theorem positionsAreABijectionOntoTheBuffer : Obligations.PositionsAreABijectionOntoTheBuffer :=
  fun _ hc => ⟨fun _ _ h => ⟨absPos_lt h, append_toNat_eq_absPos h, absPos_inverse h⟩,
    fun _ _ _ _ => absPos_injective, fun _ => exists_absPos_eq hc⟩

/-! ### ABSPOS (R91) -/

theorem encode_abspos (r p : Byte) : encode (.abspos r p) = 0x4#4 ++ 0#4 ++ r ++ p ++ 0#8 := by
  have hlow : (0#8 : Byte) = 0#7 ++ BitVec.ofBool false := by decide
  rw [hlow, encode, layout, BitVec.append_assoc]
  exact BitVec.cast_eq ..

/-- Settles O24: the word is the encoding of the command, and the position fits the 16 bits of a response's value. -/
theorem absposAnswersThePosition : Obligations.AbsposAnswersThePosition := by
  intro r p s
  refine ⟨encode_abspos r p ▸ decode_encode (.abspos r p), ?_⟩
  split
  case isTrue h =>
    have hc := (indexCheck_iff ..).mpr h
    have hfits : absPos r p < 2 ^ 16 := append_toNat_eq_absPos hc ▸ lt_trans (BitVec.isLt _) (by decide)
    exact ⟨_, (BitVec.toNat_ofNat ..).trans (Nat.mod_eq_of_lt hfits), exec_abspos_ok hc⟩
  case isFalse h =>
    exact exec_abspos_range (Bool.eq_false_iff.mpr fun hc => h ((indexCheck_iff ..).mp hc))

/-! ### The accepting micro-steps of the chain commands (R97) -/

/-- Settles O27: what `exec` answers for each of the three, with the one buffer bit read back. -/
theorem chainCommandsStartTheSequencer : Obligations.ChainCommandsStartTheSequencer := by
  intro s
  refine ⟨fun r p v h => ?_, fun r ⟨hr, hm⟩ => ?_, exec_shout s⟩
  · exact ⟨_, exec_regwr_ok ((indexCheck_iff ..).mpr h), rfl, bufWrite_getElem? (absPos r p) v s⟩
  · exact ⟨_, exec_initch_ok ((indexCheck_iff ..).mpr ⟨hr, hm, Nat.zero_le 7⟩), rfl,
      bufWrite_getElem? (absPos r 0#8) false s⟩

end Sys2Proof.Machine
end

section
/-! PROOFS, 41_shift_chain.md. The sequencer's table, one lemma a row (R97). -/

namespace Sys2Proof.Machine

/-- The position an INITCH goes on to (41_shift_chain.md R93): the last operand of the row `LATCH_HI`. -/
theorem absPos_nextPos (r : Byte) {p : BitVec 3} (h : p.toNat < 7) :
    absPos r ((p + 1#3).setWidth 8) = (r.toNat - 1) * 8 + (p + 1#3).toNat ∧ (p + 1#3).toNat = p.toNat + 1 := by
  have hwide : ((p + 1#3).setWidth 8).toNat = (p + 1#3).toNat := by bv_omega
  exact ⟨by rw [absPos, hwide], by bv_omega⟩

/-- Settles O28: phase by phase, the step is the row's pin write with the row's sequencer position. -/
theorem sequencerRowsAreThoseOfTheTable : Obligations.SequencerRowsAreThoseOfTheTable := by
  intro s h hb hi
  have hwait : offersWait s.inputs := .inl hi
  have hinputs : ∀ pin v, (lineWrite pin v s).inputs = [] := fun pin v => (lineWrite_inputs pin v s).trans hi
  cases hp : s.seq.phase with
  | idle => exact absurd hp ((busy_iff s).mp hb)
  | latchLo =>
    exact ⟨_, _, _, step_latchLo hp hwait, lineWrite_trace .., rfl, lineWrite_cfg .., hinputs .., rfl, rfl,
      firstIdx_toNat h.cfgWf, rfl, lineWrite_buf .., lineWrite_rsp .., lineWrite_draws ..⟩
  | clkLo =>
    exact ⟨_, _, _, step_clkLo hp hwait, lineWrite_trace .., rfl, lineWrite_cfg .., hinputs .., rfl, rfl,
      rfl, lineWrite_buf .., lineWrite_rsp .., lineWrite_draws ..⟩
  | data =>
    by_cases hn : s.seq.idx.toNat = 8 * s.cfg.m
    · refine ⟨_, _, _, step_pad hp hwait hn, lineWrite_trace .., ?_, lineWrite_cfg .., (lineWrite_inputs ..).trans hi,
        rfl, rfl, lineWrite_buf .., lineWrite_rsp .., ?_⟩
      · exact (pinWrite_ports _ _ (drawLevel s).2).trans (pinWrite_ports _ _ s).symm
      · rw [if_pos hn]
        exact ⟨rfl, lineWrite_draws ..⟩
    · have hlt : s.seq.idx.toNat < s.buf.length := by
        obtain ⟨hle, -⟩ := h.seqInRange
        rw [h.buf_length]
        exact lt_of_le_of_ne hle hn
      have hbit := List.getElem?_eq_getElem hlt
      refine ⟨_, _, _, step_data hp hwait hn hbit, lineWrite_trace .., rfl, lineWrite_cfg .., hinputs ..,
        rfl, rfl, lineWrite_buf .., lineWrite_rsp .., ?_⟩
      rw [if_neg hn]
      exact ⟨hbit, lineWrite_draws ..⟩
  | clkHi =>
    by_cases hz : s.seq.idx = 0#11
    · refine ⟨_, _, _, step_clkHi_last hp hwait hz, lineWrite_trace .., rfl, lineWrite_cfg .., hinputs ..,
        rfl, rfl, lineWrite_buf .., lineWrite_rsp .., lineWrite_draws .., ?_⟩
      have hzero : s.seq.idx.toNat = 0 := congrArg BitVec.toNat hz
      rw [if_pos hzero]
      rfl
    · refine ⟨_, _, _, step_clkHi hp hwait hz, lineWrite_trace .., rfl, lineWrite_cfg .., hinputs ..,
        rfl, rfl, lineWrite_buf .., lineWrite_rsp .., lineWrite_draws .., ?_⟩
      have hpos : s.seq.idx.toNat ≠ 0 := fun h0 => hz (BitVec.eq_of_toNat_eq h0)
      rw [if_neg hpos]
      exact ⟨show (s.seq.idx - 1#11).toNat + 1 = s.seq.idx.toNat by bv_omega, rfl⟩
  | latchHi =>
    by_cases hn : s.seq.iact = true ∧ s.seq.ipos.toNat < 7
    · obtain ⟨ha, h7⟩ := hn
      obtain ⟨-, -, hact⟩ := h.seqInRange
      obtain ⟨hc, -⟩ := hact ha
      obtain ⟨hpos, hnext⟩ := absPos_nextPos s.seq.ireg h7
      refine ⟨_, _, _, step_latchHi_next hp hwait ha h7 hc, lineWrite_trace .., rfl, lineWrite_cfg .., hinputs ..,
        rfl, rfl, lineWrite_draws .., ?_⟩
      rw [if_pos ⟨ha, h7⟩]
      refine ⟨hnext, rfl, lineWrite_rsp .., ?_⟩
      rw [bufWrite_buf, withSeq_buf, lineWrite_buf, hpos]
      rfl
    · refine ⟨_, _, _, step_latchHi_done hp hwait hn, lineWrite_trace .., rfl, lineWrite_cfg .., hinputs ..,
        rfl, rfl, lineWrite_draws .., ?_⟩
      rw [if_neg hn]
      exact ⟨rfl, lineWrite_buf .., rfl⟩

end Sys2Proof.Machine
end

section
/-! PROOFS, 41_shift_chain.md. What one ShiftOut issues (R94, R96) and what it leaves in the port registers (R100). -/

namespace Sys2Proof.Machine

/-! ### Events (R96) -/

/-- The events that clock out the bit `d`. -/
def clockEvents (c : Config) (d : Level) : List Event := [.wr c.pinShcp false, .wr c.pinDs d, .wr c.pinShcp true]

@[simp] theorem clockBit_trace (d : Level) (s : State) :
    (clockBit d s).trace = s.trace ++ clockEvents s.cfg d := by
  simp [clockBit, clockEvents]

theorem padPulse_trace (s : State) :
    (padPulse s).trace = s.trace ++ (padBits s).flatMap (clockEvents s.cfg) := by
  cases h : s.cfg.pad
  · simp [padPulse_of_noPad h, padBits, h]
  · rw [padPulse_eq_clockBit h, clockBit_trace, padBits, if_pos h, List.flatMap_singleton]
    rfl

/-- The loop issues the buffer's first `n` bits from the last one down. -/
theorem sendBits_trace {n : Nat} {s : State} (hn : n ≤ s.buf.length) :
    (sendBits n s).trace = s.trace ++ (s.buf.take n).reverse.flatMap (clockEvents s.cfg) := by
  induction n generalizing s with
  | zero => simp [sendBits]
  | succ n ih =>
    have hbit : s.buf.take (n + 1) = s.buf.take n ++ [s.buf.getD n false] := by
      rw [List.take_succ_eq_append_getElem (by omega), List.getD_eq_getElem _ _ (by omega)]
    rw [sendBits, ih (by rw [clockBit_buf]; omega), hbit]
    simp

theorem shiftOut_trace {s : State} (hl : s.buf.length = s.cfg.nbits) :
    (shiftOut s).trace =
      s.trace ++ [.wr s.cfg.pinStcp false] ++ (padBits s ++ s.buf.reverse).flatMap (clockEvents s.cfg) ++
        [.wr s.cfg.pinStcp true] := by
  obtain ⟨hcfg, -, hbuf, -, -⟩ := padPulse_frame (lineWrite s.cfg.pinStcp false s)
  rw [lineWrite_cfg] at hcfg
  rw [lineWrite_buf] at hbuf
  have hpad : padBits (lineWrite s.cfg.pinStcp false s) = padBits s := by simp [padBits]
  rw [shiftOut_eq, lineWrite_trace, beforeLatch, sendBits_trace (by rw [hbuf, hl]), padPulse_trace, hcfg, hbuf, hpad,
    ← hl, List.take_length, lineWrite_cfg, lineWrite_trace, List.flatMap_append, List.append_assoc (s.trace ++ _)]

theorem clockEvents_flatMap_length (c : Config) (ds : List Level) :
    (ds.flatMap (clockEvents c)).length = 3 * ds.length := by
  simp [List.length_flatMap, clockEvents, Nat.mul_comm]

theorem padBits_length (s : State) : (padBits s).length = s.cfg.pad.toNat := by
  cases h : s.cfg.pad <;> simp [padBits, h]

theorem shiftOut_trace_length {s : State} (hl : s.buf.length = s.cfg.nbits) :
    (shiftOut s).trace.length = s.trace.length + s.cfg.shiftEvents := by
  rw [shiftOut_trace hl]
  simp only [List.length_append, clockEvents_flatMap_length, padBits_length, List.length_reverse, hl,
    List.length_singleton, Config.shiftEvents, Config.pulses]
  omega

/-- Settles O32: the latch goes low, the pad bit and the loop's bits follow, the latch goes high. -/
theorem shiftOutIssuesTheWholeBufferInOrder : Obligations.ShiftOutIssuesTheWholeBufferInOrder :=
  fun _ hl => ⟨shiftOut_trace hl, shiftOut_trace_length hl⟩

/-! ### Output bits (R100) -/

section
variable {g : Group} {k : Nat}

theorem lineWrite_outBit (pin : Byte) (v : Level) (s : State) :
    outBit (lineWrite pin v s).ports g k = if decodeW pin = some (g, k) then v else outBit s.ports g k :=
  pinWrite_outBit pin v s g k

/-- A clocked bit ends with the clock high; the data line keeps the bit, unless it is the clock line too. -/
theorem clockBit_outBit (d : Level) (s : State) :
    outBit (clockBit d s).ports g k =
      if decodeW s.cfg.pinShcp = some (g, k) then true
      else if decodeW s.cfg.pinDs = some (g, k) then d else outBit s.ports g k := by
  simp only [clockBit, lineWrite_outBit]
  split_ifs <;> rfl

/-- After at least one iteration of the loop, the data line has the bit clocked last, `BUF[0]`. -/
theorem sendBits_outBit (n : Nat) (s : State) :
    outBit (sendBits (n + 1) s).ports g k =
      if decodeW s.cfg.pinShcp = some (g, k) then true
      else if decodeW s.cfg.pinDs = some (g, k) then s.buf.getD 0 false else outBit s.ports g k := by
  induction n generalizing s with
  | zero => exact clockBit_outBit _ s
  | succ n ih =>
    rw [sendBits, ih, clockBit_outBit, clockBit_cfg, clockBit_buf]
    split_ifs <;> rfl

theorem padPulse_outBit {s : State} (hshcp : decodeW s.cfg.pinShcp ≠ some (g, k))
    (hds : decodeW s.cfg.pinDs ≠ some (g, k)) : outBit (padPulse s).ports g k = outBit s.ports g k := by
  cases h : s.cfg.pad
  · rw [padPulse_of_noPad h]
  · rw [padPulse_eq_clockBit h, clockBit_outBit, drawLevel_state_cfg, if_neg hshcp, if_neg hds, drawLevel_state_ports]

/-- Each output bit holds what was written to it last; the latch is written last, then the clock, then the data. -/
theorem shiftOut_outBit {s : State} (hc : s.cfg.wf = true) :
    outBit (shiftOut s).ports g k =
      if decodeW s.cfg.pinStcp = some (g, k) ∨ decodeW s.cfg.pinShcp = some (g, k) then true
      else if decodeW s.cfg.pinDs = some (g, k) then s.buf.getD 0 false else outBit s.ports g k := by
  obtain ⟨hcfg, -, hbuf, -, -⟩ := padPulse_frame (lineWrite s.cfg.pinStcp false s)
  rw [lineWrite_cfg] at hcfg
  rw [lineWrite_buf] at hbuf
  obtain ⟨n, hn⟩ := Nat.exists_eq_add_of_le' (nbits_range hc).1
  rw [shiftOut_eq, lineWrite_outBit, beforeLatch, hn, sendBits_outBit, hcfg, hbuf]
  by_cases hstcp : decodeW s.cfg.pinStcp = some (g, k)
  · rw [if_pos hstcp, if_pos (.inl hstcp)]
  by_cases hshcp : decodeW s.cfg.pinShcp = some (g, k)
  · rw [if_neg hstcp, if_pos hshcp, if_pos (.inr hshcp)]
  rw [if_neg hstcp, if_neg hshcp, if_neg (not_or.mpr ⟨hstcp, hshcp⟩)]
  by_cases hds : decodeW s.cfg.pinDs = some (g, k)
  · rw [if_pos hds, if_pos hds]
  · rw [if_neg hds, if_neg hds, padPulse_outBit (by rwa [lineWrite_cfg]) (by rwa [lineWrite_cfg]), lineWrite_outBit,
      if_neg hstcp]

end

/-! ### The other port registers -/

/-- `after` has the direction registers and the pads' levels of `before`. -/
def OnlyOutputsChange (before after : Ports) : Prop :=
  after = { before with outa := after.outa, outb := after.outb }

theorem OnlyOutputsChange.refl (p : Ports) : OnlyOutputsChange p p := rfl

theorem OnlyOutputsChange.trans {p q r : Ports} (hpq : OnlyOutputsChange p q) (hqr : OnlyOutputsChange q r) :
    OnlyOutputsChange p r := by
  unfold OnlyOutputsChange at *
  rw [hqr, hpq]

theorem lineWrite_onlyOutputs (pin : Byte) (v : Level) (s : State) :
    OnlyOutputsChange s.ports (lineWrite pin v s).ports :=
  pinWrite_ports_frame pin v s

theorem clockBit_onlyOutputs (d : Level) (s : State) : OnlyOutputsChange s.ports (clockBit d s).ports :=
  ((lineWrite_onlyOutputs ..).trans (lineWrite_onlyOutputs ..)).trans (lineWrite_onlyOutputs ..)

theorem sendBits_onlyOutputs (n : Nat) (s : State) : OnlyOutputsChange s.ports (sendBits n s).ports := by
  induction n generalizing s with
  | zero => exact .refl _
  | succ n ih => exact (clockBit_onlyOutputs ..).trans (ih _)

theorem padPulse_onlyOutputs (s : State) : OnlyOutputsChange s.ports (padPulse s).ports := by
  cases h : s.cfg.pad
  · rw [padPulse_of_noPad h]; exact .refl _
  · rw [padPulse_eq_clockBit h]; exact clockBit_onlyOutputs _ (drawLevel s).2

theorem shiftOut_onlyOutputs (s : State) : OnlyOutputsChange s.ports (shiftOut s).ports :=
  (((lineWrite_onlyOutputs ..).trans (padPulse_onlyOutputs _)).trans (sendBits_onlyOutputs ..)).trans
    (lineWrite_onlyOutputs ..)

/-- A valid pin's bit is a control pin's exactly when the pin is that control pin. -/
theorem decodeW_eq_iff {p q : Byte} {x : Group × Nat} (hp : decodeW p = some x) : decodeW q = some x ↔ p = q :=
  ⟨decodeW_inj hp, fun h => h ▸ hp⟩

/-- Settles O33: the bit last written, read at the bit of a valid pin and at one that no pin reaches. -/
theorem shiftOutLeavesTheControlBits : Obligations.ShiftOutLeavesTheControlBits := by
  intro s hc _
  obtain ⟨hcfg, -, hbuf, -, -⟩ := shiftOut_frame s
  refine ⟨fun pin g k hd => ?_, fun g k hno => ?_, shiftOut_onlyOutputs s, hbuf, hcfg⟩
  · simp only [shiftOut_outBit hc, decodeW_eq_iff hd]
  · simp only [shiftOut_outBit hc, hno, or_self, if_false]

end Sys2Proof.Machine
end

section
/-! PROOFS, 41_shift_chain.md. The sequencer's table and the big-step rules agree (R92, R93, R95, R97). -/

namespace Sys2Proof.Machine

/-! ### A ShiftOut neither reads nor writes the response port -/

theorem lineWrite_respond (pin : Byte) (v : Level) (q : Response) (s : State) :
    lineWrite pin v (respond q s) = respond q (lineWrite pin v s) := by
  have h : (pinWrite pin v (respond q s)).2 = respond q (pinWrite pin v s).2 := by
    unfold pinWrite; split <;> rfl
  unfold lineWrite; rw [h]; rfl

theorem clockBit_respond (d : Level) (q : Response) (s : State) :
    clockBit d (respond q s) = respond q (clockBit d s) := by
  simp only [clockBit, lineWrite_respond, respond_cfg]

theorem sendBits_respond (n : Nat) (q : Response) (s : State) :
    sendBits n (respond q s) = respond q (sendBits n s) := by
  induction n generalizing s with
  | zero => rfl
  | succ n ih => rw [sendBits, sendBits, respond_buf, clockBit_respond, ih]

theorem padPulse_respond (q : Response) (s : State) : padPulse (respond q s) = respond q (padPulse s) := by
  cases h : s.cfg.pad
  · rw [padPulse_of_noPad h, padPulse_of_noPad (s := respond q s) h]
  · rw [padPulse_eq_clockBit h, padPulse_eq_clockBit (s := respond q s) h]
    exact clockBit_respond _ q (drawLevel s).2

theorem shiftOut_respond (q : Response) (s : State) : shiftOut (respond q s) = respond q (shiftOut s) := by
  simp only [shiftOut, respond_cfg, lineWrite_respond, padPulse_respond, sendBits_respond]

theorem clearBits_respond (r : Byte) (n p : Nat) (q : Response) (s : State) :
    clearBits r n p (respond q s) = respond q (clearBits r n p s) := by
  have hone : ∀ i u, shiftOut (bufWrite i false (respond q u)) = respond q (shiftOut (bufWrite i false u)) :=
    fun i u => shiftOut_respond q (bufWrite i false u)
  induction n generalizing p s with
  | zero => exact hone _ s
  | succ n ih => rw [clearBits, clearBits, hone, ih]

/-- What a command does between its acceptance and its response, as a function of the state that neither the sequencer's
position nor the response port has a part in. -/
structure IgnoresSeqAndRsp (F : State → State) : Prop where
  withSeq : ∀ q s, F (withSeq q s) = withSeq q (F s)
  respond : ∀ q s, F (respond q s) = respond q (F s)

theorem shiftOut_ignoresSeqAndRsp : IgnoresSeqAndRsp shiftOut := ⟨shiftOut_withSeq, shiftOut_respond⟩

theorem clearBits_ignoresSeqAndRsp (r : Byte) (n p : Nat) : IgnoresSeqAndRsp (clearBits r n p) :=
  ⟨clearBits_withSeq r n p, clearBits_respond r n p⟩

section
variable {F : State → State} (hF : IgnoresSeqAndRsp F)
include hF

theorem IgnoresSeqAndRsp.seq (s : State) : (F s).seq = s.seq := by
  have hself := congrArg State.seq (hF.withSeq s.seq s)
  exact hself

theorem IgnoresSeqAndRsp.atRest (s : State) : F (atRest s) = atRest (F s) := by
  have hrest : ∀ u, Machine.atRest u = Machine.withSeq { u.seq with phase := .idle, idx := 0#11, iact := false } u :=
    fun _ => rfl
  rw [hrest, hrest, hF.withSeq, hF.seq]

/-- From two states that differ in the sequencer's position and the response only, the table and the big step come to
the same end. -/
theorem IgnoresSeqAndRsp.end_eq {s u : State} {q : Response} {p : Seq}
    (h : Machine.respond q (Machine.withSeq p s) = Machine.atRest (Machine.respond q u)) :
    Machine.respond q (Machine.withSeq p (F s)) = Machine.atRest (Machine.respond q (F u)) := by
  rw [← hF.withSeq, ← hF.respond, h, hF.atRest, hF.respond]

end

/-! ### The runs -/

/-- The only word to come is accepted, and the chain reacts. -/
theorem step_accepts {s t : State} {i : Instr} (ho : offersOnly i s) (ht : exec i { s with inputs := [] } = .next t) :
    step s = .next (settle s t) := by
  obtain ⟨hb, hi⟩ := ho
  rw [step_offer hb hi (decode_encode i), ht, settleOutcome_next]

/-- The acceptance of SHOUT and REGWR is followed by one ShiftOut and the response. -/
theorem run_startShift_bigStep (b : State) {s : State} (hc : s.cfg.wf = true) (hl : s.buf.length = s.cfg.nbits)
    (hi : s.inputs = []) :
    runSteps s.cfg.shiftEvents (settle b (startShift false s)) =
      .next (atRest (respond (.ok 0#16) (shiftOut (settle b s)))) :=
  (run_shiftOut_done (s := settle b (startShift false s)) hc hl rfl (.inl hi) (by simp)).trans
    (congrArg Host.Outcome.next (shiftOut_ignoresSeqAndRsp.end_eq rfl))

/-- Settles O29: the accepting step, and then the run of one ShiftOut. -/
theorem sequencerRunsShoutAsItsBigStep : Obligations.SequencerRunsShoutAsItsBigStep :=
  fun s hc hl ho => ⟨_, exec_shout _, step_accepts ho (exec_shout _),
    run_startShift_bigStep s (s := { s with inputs := [] }) hc hl rfl⟩

theorem bigRegwr_ok {r p : Byte} {v : Level} {s : State} (h : indexCheck s.cfg r p = true) :
    bigRegwr r p v s = atRest (respond (.ok 0#16) (shiftOut (settle s (bufWrite (absPos r p) v s)))) := if_pos h

/-- Settles O30: the accepting step writes the bit, and then the run of one ShiftOut. -/
theorem sequencerRunsRegwrAsItsBigStep : Obligations.SequencerRunsRegwrAsItsBigStep := by
  intro s r p v hc hl hr hm hp ho
  have hindex : indexCheck s.cfg r p = true := (indexCheck_iff ..).mpr ⟨hr, hm, hp⟩
  refine ⟨_, exec_regwr_ok hindex, step_accepts ho (exec_regwr_ok hindex), ?_⟩
  rw [bigRegwr_ok (s := { s with inputs := [] }) hindex]
  exact run_startShift_bigStep s (s := bufWrite (absPos r p) v { s with inputs := [] }) hc (by simpa using hl) rfl

theorem bigInitch_ok {r : Byte} {s : State} (h : indexCheck s.cfg r 0#8 = true) :
    bigInitch r s = atRest (respond (.ok 0#16)
      (clearBits r 7 0 (settle s { s with seq := { s.seq with ireg := r, ipos := 7#3 } }))) := if_pos h

/-- The acceptance of INITCH clears the first position; eight ShiftOuts and the response follow. -/
theorem run_startInitch_bigStep (b : State) {s : State} {r : Byte} (hc : s.cfg.wf = true)
    (hl : s.buf.length = s.cfg.nbits) (hi : s.inputs = []) (hindex : indexCheck s.cfg r 0#8 = true) :
    runSteps (8 * s.cfg.shiftEvents) (settle b (startShift true
        (bufWrite (absPos r 0#8) false { s with seq := { s.seq with ireg := r, ipos := 0#3 } }))) =
      .next (atRest (respond (.ok 0#16)
        (clearBits r 7 0 (settle b { s with seq := { s.seq with ireg := r, ipos := 7#3 } })))) := by
  have hrun := run_clearBits (n := 7) (p := 0)
    (s := settle b (startShift true { s with seq := { s.seq with ireg := r, ipos := 0#3 } }))
    hc hl rfl (.inl hi) rfl rfl rfl hindex
  exact hrun.trans (congrArg Host.Outcome.next ((clearBits_ignoresSeqAndRsp r 7 0).end_eq rfl))

/-- Settles O31: the accepting step clears the first position, and then the run of the eight ShiftOuts. -/
theorem sequencerRunsInitchAsItsBigStep : Obligations.SequencerRunsInitchAsItsBigStep := by
  intro s r hc hl hr hm ho
  have hindex : indexCheck s.cfg r 0#8 = true := (indexCheck_iff ..).mpr ⟨hr, hm, Nat.zero_le 7⟩
  refine ⟨_, exec_initch_ok hindex, step_accepts ho (exec_initch_ok hindex), ?_⟩
  rw [bigInitch_ok (s := { s with inputs := [] }) hindex]
  exact run_startInitch_bigStep s (s := { s with inputs := [] }) hc hl rfl hindex

end Sys2Proof.Machine
end

section
/-! PROOFS, 41_shift_chain.md. Commands run to completion: their micro-steps and events (R98), and what REGWR and INITCH
leave behind (R92, R93). -/

namespace Sys2Proof.Machine

/-! ### The eight ShiftOuts of an INITCH (R93) -/

theorem clearBits_onlyOutputs (r : Byte) (n p : Nat) (s : State) :
    OnlyOutputsChange s.ports (clearBits r n p s).ports := by
  induction n generalizing p s with
  | zero => exact shiftOut_onlyOutputs (bufWrite _ false s)
  | succ n ih => exact (shiftOut_onlyOutputs (bufWrite _ false s)).trans (ih ..)

/-- The positions from `p` to `p + n` of the register become 0. -/
theorem clearBits_getElem? (r : Byte) (n p : Nat) (s : State) (j : Nat) :
    (clearBits r n p s).buf[j]? =
      if absPos r 0#8 + p ≤ j ∧ j ≤ absPos r 0#8 + (p + n) then s.buf[j]?.map fun _ => false else s.buf[j]? := by
  have hone : ∀ i u, (shiftOut (bufWrite i false u)).buf[j]? =
      if j = i then u.buf[j]?.map fun _ => false else u.buf[j]? := by
    intro i u
    obtain ⟨-, -, hbuf, -, -⟩ := shiftOut_frame (bufWrite i false u)
    rw [hbuf, bufWrite_getElem?]
  induction n generalizing p s with
  | zero =>
    rw [clearBits, hone]
    exact if_congr (by omega) rfl rfl
  | succ n ih =>
    rw [clearBits, ih, hone]
    by_cases hj : j = absPos r 0#8 + p
    · rw [if_neg (by omega), if_pos hj, if_pos (by omega)]
    · rw [if_neg hj]
      exact if_congr (by omega) rfl rfl

theorem clearBits_trace_length (r : Byte) (n p : Nat) {s : State} (hl : s.buf.length = s.cfg.nbits) :
    (clearBits r n p s).trace.length = s.trace.length + (n + 1) * s.cfg.shiftEvents := by
  have hone : ∀ {u : State} (i : Nat), u.buf.length = u.cfg.nbits →
      (shiftOut (bufWrite i false u)).trace.length = u.trace.length + u.cfg.shiftEvents := fun i hu =>
    shiftOut_trace_length (by simpa using hu)
  induction n generalizing p s with
  | zero => rw [clearBits, hone _ hl, Nat.zero_add, Nat.one_mul]
  | succ n ih =>
    obtain ⟨hcfg, -, hbuf, -, -⟩ := shiftOut_frame (bufWrite (absPos r 0#8 + p) false s)
    rw [clearBits, ih _ (by simpa [hcfg, hbuf] using hl), hone _ hl, hcfg, bufWrite_cfg, Nat.succ_mul (n + 1)]
    omega

/-! ### Runs with no move to come -/

theorem runSteps_inv {n : Nat} {s t : State} (h : s.Inv) (hrun : runSteps n s = .next t) : t.Inv := by
  induction n generalizing s with
  | zero => injection hrun with hrun; exact hrun ▸ h
  | succ n ih =>
    obtain ⟨u, hstep, hrun⟩ := runSteps_succ_inv hrun
    obtain ⟨u', hstep', hu⟩ := everyStepCompletesAndKeepsTheInvariant s h
    obtain rfl : u = u' := Host.Outcome.next.inj (hstep.symm.trans hstep')
    exact ih hu hrun

/-- With no move to come, a step is a micro-step of the sequencer: no move comes, and at most one event is issued, none by
an idle SRSER, which stays idle. -/
theorem step_noInputs {s t : State} (hi : s.inputs = []) (h : step s = .next t) :
    t.inputs = [] ∧ t.trace.length ≤ s.trace.length + 1 ∧
      (busy s = false → busy t = false ∧ t.trace.length = s.trace.length) := by
  rw [step_eq_settle_move, move, hi, settleOutcome_eq_next] at h
  obtain ⟨u, hu, rfl⟩ := h
  rcases seqStep_cases hu with ⟨hp, rfl⟩ | ⟨hp, pin, v, -, hinputs, -, -, htrace, -⟩
  · exact ⟨hi, Nat.le_succ _, fun hb => ⟨hb, rfl⟩⟩
  · refine ⟨hinputs.trans hi, by simp [htrace], fun hb => absurd ((busy_false_iff s).mp hb) hp⟩

theorem runSteps_noInputs {n : Nat} {s t : State} (hi : s.inputs = []) (h : runSteps n s = .next t) :
    t.inputs = [] ∧ t.trace.length ≤ s.trace.length + n ∧
      (busy s = false → busy t = false ∧ t.trace.length = s.trace.length) := by
  induction n generalizing s with
  | zero => injection h with h; subst h; exact ⟨hi, Nat.le_refl _, fun hb => ⟨hb, rfl⟩⟩
  | succ n ih =>
    obtain ⟨u, hstep, hrun⟩ := runSteps_succ_inv h
    obtain ⟨hi', hle, hidle⟩ := step_noInputs hi hstep
    obtain ⟨hi'', hle', hidle'⟩ := ih hi' hrun
    refine ⟨hi'', by omega, fun hb => ?_⟩
    obtain ⟨hb', heq⟩ := hidle hb
    obtain ⟨hb'', heq'⟩ := hidle' hb'
    exact ⟨hb'', heq'.trans heq⟩

/-! ### Every command is answered (R98) -/

/-- After `steps` steps SRSER is idle with a response, `events` events later; until then it is busy with none. -/
def AnsweredAfter (steps events : Nat) (s : State) : Prop :=
  (∃ t, runSteps steps s = .next t ∧ busy t = false ∧ t.inputs = [] ∧ t.rsp.isSome = true ∧
    t.trace.length = s.trace.length + events) ∧
  ∀ n, 0 < n → n < steps → ∃ u, runSteps n s = .next u ∧ busy u = true ∧ u.rsp = none

/-- A command that answers in its accepting micro-step. -/
theorem answeredAtOnce {s u : State} {i : Instr} {q : Response} {events : Nat} (ho : offersOnly i s)
    (ht : exec i { s with inputs := [] } = .next (respond q u)) (hseq : u.seq = s.seq) (hi : u.inputs = [])
    (htrace : u.trace.length = s.trace.length + events) : AnsweredAfter 1 events s := by
  refine ⟨⟨_, runSteps_succ (step_accepts ho ht), ?_, hi, rfl, htrace⟩, fun n h₀ h₁ => by omega⟩
  obtain ⟨hb, -⟩ := ho
  rw [busy_false_iff] at hb ⊢
  exact (congrArg Seq.phase hseq).trans hb

/-- A command that goes on to ShiftOuts, one event a step: an SRSER idle before the end would issue too few of them. -/
theorem answeredAfter_shiftOuts {s t w : State} {n : Nat} (h : s.Inv) (hstep : step s = .next t) (hi : t.inputs = [])
    (htrace : t.trace = s.trace) (hrun : runSteps n t = .next (atRest (respond (.ok 0#16) w)))
    (hlen : w.trace.length = s.trace.length + n) : AnsweredAfter (1 + n) n s := by
  obtain ⟨hi', -⟩ := runSteps_noInputs hi hrun
  rw [Nat.add_comm]
  refine ⟨⟨_, (runSteps_succ hstep).trans hrun, rfl, hi', rfl, hlen⟩, fun k hk hkn => ?_⟩
  obtain ⟨j, rfl⟩ := Nat.exists_eq_add_of_le' (Nat.succ_le_of_lt hk)
  obtain ⟨m, rfl⟩ := Nat.exists_eq_add_of_lt (Nat.lt_of_succ_lt_succ hkn)
  obtain ⟨u, hu, hrest⟩ := runSteps_split (n := j) (m := m + 1) hrun
  obtain ⟨hiu, hle, -⟩ := runSteps_noInputs hi hu
  obtain ⟨-, -, hidle⟩ := runSteps_noInputs hiu hrest
  have hsu : runSteps (j + 1) s = .next u := (runSteps_succ hstep).trans hu
  have hbusy : busy u = true := by
    by_contra hb
    obtain ⟨-, hend⟩ := hidle (by simpa using hb)
    rw [atRest_trace, respond_trace] at hend
    rw [htrace] at hle
    omega
  exact ⟨u, hsu, hbusy, (runSteps_inv h hsu).rsp_eq_none ((busy_iff u).mp hbusy)⟩

/-- Settles O34: a command answers at once, or with the last event of its one or eight ShiftOuts. -/
theorem everyCommandIsAnsweredAfterItsMicroSteps : Obligations.EveryCommandIsAnsweredAfterItsMicroSteps := by
  intro s i h ho
  show AnsweredAfter (microSteps s.cfg i) (eventCount s.cfg i) s
  cases i with
  | cfgdir pin v => exact answeredAtOnce ho (exec_cfgdir ..) (by simp) (by simp) (by simp [eventCount])
  | pinwr pin v => exact answeredAtOnce ho (exec_pinwr ..) (by simp) (by simp) (by simp [eventCount])
  | pinrd pin =>
    obtain ⟨v, htrace⟩ := pinRead_trace pin { s with inputs := [] }
    refine answeredAtOnce ho (exec_pinrd ..) (by rw [pinRead_frame]) (by rw [pinRead_frame]) ?_
    simp [htrace, eventCount]
  | abspos r p =>
    cases hc : indexCheck s.cfg r p
    · exact answeredAtOnce ho (exec_abspos_range hc) rfl rfl rfl
    · exact answeredAtOnce ho (exec_abspos_ok hc) rfl rfl rfl
  | regwr r p v =>
    cases hc : indexCheck s.cfg r p
    · simp only [microSteps, eventCount, hc, Bool.false_eq_true, if_false]
      exact answeredAtOnce ho (exec_regwr_range hc) rfl rfl rfl
    · simp only [microSteps, eventCount, hc, if_true]
      have hl : (bufWrite (absPos r p) v s).buf.length = s.cfg.nbits := by simpa using h.buf_length
      exact answeredAfter_shiftOuts h (step_accepts ho (exec_regwr_ok hc)) rfl rfl
        (run_startShift_bigStep s (s := bufWrite (absPos r p) v { s with inputs := [] }) h.cfgWf hl rfl)
        (shiftOut_trace_length (s := settle s (bufWrite (absPos r p) v { s with inputs := [] })) hl)
  | initch r =>
    cases hc : indexCheck s.cfg r 0#8
    · simp only [microSteps, eventCount, hc, Bool.false_eq_true, if_false]
      exact answeredAtOnce ho (exec_initch_range hc) rfl rfl rfl
    · simp only [microSteps, eventCount, hc, if_true]
      exact answeredAfter_shiftOuts h (step_accepts ho (exec_initch_ok hc)) rfl rfl
        (run_startInitch_bigStep s (s := { s with inputs := [] }) h.cfgWf h.buf_length rfl hc)
        (clearBits_trace_length r 7 0 h.buf_length)
  | shout =>
    exact answeredAfter_shiftOuts h (step_accepts ho (exec_shout _)) rfl rfl
      (run_startShift_bigStep s (s := { s with inputs := [] }) h.cfgWf h.buf_length rfl)
      (shiftOut_trace_length (s := settle s { s with inputs := [] }) h.buf_length)

/-! ### What REGWR and INITCH leave behind (R92, R93) -/

/-- REGWR as a big step: one buffer bit, `OK`, and of the ports the output bits of the control pins only. -/
theorem bigRegwr_effect {r p : Byte} (v : Level) {s : State} (h : indexCheck s.cfg r p = true) (hc : s.cfg.wf = true) :
    (bigRegwr r p v s).rsp = some (.ok 0#16) ∧ (bigRegwr r p v s).buf = s.buf.set (absPos r p) v ∧
      OnlyOutputsChange s.ports (bigRegwr r p v s).ports ∧
      ∀ pin g k, decodeW pin = some (g, k) → pin ≠ s.cfg.pinStcp → pin ≠ s.cfg.pinShcp → pin ≠ s.cfg.pinDs →
        outBit (bigRegwr r p v s).ports g k = outBit s.ports g k := by
  obtain ⟨-, -, hbuf, -, -⟩ := shiftOut_frame (settle s (bufWrite (absPos r p) v s))
  rw [bigRegwr_ok h]
  refine ⟨rfl, hbuf, shiftOut_onlyOutputs (settle s (bufWrite (absPos r p) v s)), fun pin g k hd hstcp hshcp hds => ?_⟩
  rw [atRest_ports, respond_ports, shiftOut_outBit (s := settle s (bufWrite (absPos r p) v s)) hc]
  simp [decodeW_eq_iff hd, hstcp, hshcp, hds]

/-- INITCH as a big step: the eight buffer bits of its register, `OK`, and of the ports the output registers only. -/
theorem bigInitch_effect {r : Byte} {s : State} (h : indexCheck s.cfg r 0#8 = true) :
    (bigInitch r s).rsp = some (.ok 0#16) ∧
      (∀ j, (bigInitch r s).buf[j]? =
        if absPos r 0#8 + 0 ≤ j ∧ j ≤ absPos r 0#8 + (0 + 7) then s.buf[j]?.map fun _ => false else s.buf[j]?) ∧
      OnlyOutputsChange s.ports (bigInitch r s).ports := by
  rw [bigInitch_ok h, atRest_rsp, atRest_buf, atRest_ports, respond_rsp, respond_buf, respond_ports]
  exact ⟨rfl, clearBits_getElem? r 7 0 _,
    clearBits_onlyOutputs r 7 0 (settle s { s with seq := { s.seq with ireg := r, ipos := 7#3 } })⟩

/-- The step of acceptance and the run after it. -/
theorem runSteps_one_add {n : Nat} {s t u : State} (hstep : step s = .next t) (hrun : runSteps n t = .next u) :
    runSteps (1 + n) s = .next u := by
  rw [Nat.add_comm, runSteps_succ hstep, hrun]

/-- Settles O35: the end is that of the big step, which writes the bit and makes one ShiftOut. -/
theorem regwrSetsExactlyOneBufferBit : Obligations.RegwrSetsExactlyOneBufferBit := by
  intro s r p v h ho hr hm hp
  have hindex : indexCheck s.cfg r p = true := (indexCheck_iff ..).mpr ⟨hr, hm, hp⟩
  have hlt : absPos r p < s.buf.length := h.buf_length ▸ absPos_lt hindex
  obtain ⟨t, -, hstep, hrun⟩ := sequencerRunsRegwrAsItsBigStep s r p v h.cfgWf h.buf_length hr hm hp ho
  obtain ⟨hrsp, hbuf, hports, hout⟩ := bigRegwr_effect v (s := { s with inputs := [] }) hindex h.cfgWf
  refine ⟨_, runSteps_one_add hstep hrun, hrsp, fun j => ?_, hports, hout⟩
  rw [hbuf, List.getElem?_set, if_pos hlt]
  exact if_congr eq_comm rfl rfl

/-- Settles O36: the end is that of the big step, which clears the positions 0 to 7 of the register. -/
theorem initchClearsExactlyOneRegister : Obligations.InitchClearsExactlyOneRegister := by
  intro s r h ho hr hm
  have hindex : indexCheck s.cfg r 0#8 = true := (indexCheck_iff ..).mpr ⟨hr, hm, Nat.zero_le 7⟩
  obtain ⟨t, -, hstep, hrun⟩ := sequencerRunsInitchAsItsBigStep s r h.cfgWf h.buf_length hr hm ho
  obtain ⟨hrsp, hbuf, hports⟩ := bigInitch_effect (s := { s with inputs := [] }) hindex
  refine ⟨_, runSteps_one_add hstep hrun, hrsp, fun j => ?_, hports⟩
  have hfirst : absPos r 0#8 = (r.toNat - 1) * 8 := rfl
  rw [hbuf, hfirst]
  refine if_ctx_congr (by omega) (fun hj => ?_) fun _ => rfl
  have hlt : j < s.buf.length := by rw [h.buf_length]; unfold Config.nbits; omega
  rw [List.getElem?_eq_getElem hlt, Option.map_some]

end Sys2Proof.Machine
end

section
/-! PROOFS, 42_external_chain.md. The edges of the lines and the chain's reaction to them (R111 to R114), and what one ShiftOut
leaves in the chain (R116, R117). -/

namespace Sys2Proof.Machine

/-! ### Rising edges (R111) -/

/-- The line of `pin` goes from 0 to 1. -/
def LineRises (pin : Byte) (before after : Ports) : Prop :=
  lineDrive pin before = some false ∧ lineDrive pin after = some true

theorem rising_eq_true_iff (pin : Byte) (before after : Ports) :
    rising (lineDrive pin before) (lineDrive pin after) = true ↔ LineRises pin before after := by
  simp only [rising, LineRises, Bool.and_eq_true, decide_eq_true_eq]

/-- No two lines rise together. -/
def AtMostOneLineRises (before after : Ports) : Prop :=
  ∀ p q, LineRises p before after → LineRises q before after → p = q

section
variable {pin : Byte} {v : Level} {before after : Ports}

theorem not_lineRises_of_eq (h : lineDrive pin after = lineDrive pin before) : ¬LineRises pin before after := by
  rintro ⟨hlow, hhigh⟩
  rw [h, hlow] at hhigh
  cases hhigh

/-- A line shows nothing but the two bits of its own pin. -/
theorem lineDrive_eq_of_bits
    (h : ∀ g k, decodeW pin = some (g, k) →
      outBit after g k = outBit before g k ∧ dirBit after g k = dirBit before g k) :
    lineDrive pin after = lineDrive pin before := by
  unfold lineDrive
  rcases hd : decodeW pin with _ | ⟨g, k⟩
  · rfl
  · obtain ⟨hout, hdir⟩ := h g k hd
    simp only [padDrive, hout, hdir]

theorem AtMostOneLineRises.of_others_keep (h : ∀ q, pin ≠ q → lineDrive q after = lineDrive q before) :
    AtMostOneLineRises before after := by
  have only : ∀ q, LineRises q before after → pin = q := fun q hq =>
    by_contra fun hne => not_lineRises_of_eq (h q hne) hq
  exact fun p q hp hq => (only p hp).symm.trans (only q hq)

theorem AtMostOneLineRises.of_same (h : ∀ q, lineDrive q after = lineDrive q before) : AtMostOneLineRises before after :=
  fun p _ hp _ => absurd hp (not_lineRises_of_eq (h p))

theorem WritesOutBit.atMostOneLineRises (h : WritesOutBit pin v before after) : AtMostOneLineRises before after :=
  .of_others_keep (pin := pin) fun _ hne => lineDrive_eq_of_bits fun _ _ hd => h.keeps_other_pin hne hd

theorem WritesDirBit.atMostOneLineRises (h : WritesDirBit pin v before after) : AtMostOneLineRises before after :=
  .of_others_keep (pin := pin) fun _ hne => lineDrive_eq_of_bits fun _ _ hd => h.keeps_other_pin hne hd

end

/-- After a reset every pin is an input, so no line has a level. -/
theorem lineDrive_resetState (pin : Byte) (s : State) : lineDrive pin (resetState s).ports = none := by
  unfold lineDrive
  rcases decodeW pin with _ | ⟨g, k⟩
  · rfl
  · exact padDrive_of_input (by cases g <;> simp [dirBit])

/-! ### What a step gives the chain to react to -/

/-- From `s` to `u` the parameters and the chain stay, and no two lines rise. -/
structure MovesOneLine (s u : State) : Prop where
  cfg : u.cfg = s.cfg
  chain : u.chain = s.chain
  edges : AtMostOneLineRises s.ports u.ports

theorem MovesOneLine.of_same {s u : State} (hcfg : u.cfg = s.cfg) (hchain : u.chain = s.chain)
    (hports : u.ports = s.ports) : MovesOneLine s u :=
  ⟨hcfg, hchain, .of_same fun q => by rw [hports]⟩

/-- A command that checks its index goes one of two ways. -/
theorem MovesOneLine.of_next_ite {p : Prop} [Decidable p] {s u a b : State}
    (h : (if p then .next a else .next b : Host.Outcome State Fault Refusal) = .next u) (ha : MovesOneLine s a)
    (hb : MovesOneLine s b) : MovesOneLine s u := by
  split at h
  · injection h with h; exact h ▸ ha
  · injection h with h; exact h ▸ hb

theorem seqStep_movesOneLine {s u : State} (h : seqStep s = .next u) : MovesOneLine s u := by
  rcases seqStep_cases h with ⟨-, rfl⟩ | ⟨-, pin, v, hcfg, -, hchain, hports, -⟩
  · exact .of_same rfl rfl rfl
  · exact ⟨hcfg, hchain, hports ▸ (pinWrite_writesOutBit pin v s).atMostOneLineRises⟩

theorem exec_movesOneLine {i : Instr} {s u : State} (h : exec i s = .next u) : MovesOneLine s u := by
  cases i with
  | cfgdir pin v =>
    injection h with h; subst h
    exact ⟨pinDir_cfg pin v s, pinDir_chain pin v s, (pinDir_writesDirBit pin v s).atMostOneLineRises⟩
  | pinwr pin v =>
    injection h with h; subst h
    exact ⟨pinWrite_cfg pin v s, pinWrite_chain pin v s, (pinWrite_writesOutBit pin v s).atMostOneLineRises⟩
  | pinrd pin =>
    injection h with h; subst h
    rw [pinRead_frame]
    exact .of_same rfl rfl rfl
  | abspos | regwr | initch => exact .of_next_ite h (.of_same rfl rfl rfl) (.of_same rfl rfl rfl)
  | shout => injection h with h; subst h; exact .of_same rfl rfl rfl

/-- A step is a move that makes at most one line rise, and the chain's reaction to it. -/
theorem step_movesOneLine {s t : State} (h : step s = .next t) : ∃ u, t = settle s u ∧ MovesOneLine s u := by
  rcases step_cases h with ⟨u, rfl, hu, -⟩ | ⟨rest, u, -, rfl, hu⟩ | ⟨a, b, rest, -, rfl⟩ | ⟨rest, -, rfl⟩ |
    ⟨-, w, rest, -, ⟨i, u, -, hu, rfl⟩ | ⟨e, -, rfl⟩⟩
  · exact ⟨u, rfl, seqStep_movesOneLine hu⟩
  · obtain ⟨hcfg, hchain, hedges⟩ := seqStep_movesOneLine hu
    exact ⟨u, rfl, hcfg, hchain, hedges⟩
  · exact ⟨_, rfl, rfl, rfl, .of_same fun q => lineDrive_envPads q a b { s with inputs := rest }⟩
  · refine ⟨_, rfl, rfl, rfl, fun p _ hp _ => ?_⟩
    rw [LineRises, lineDrive_resetState] at hp
    cases hp.2
  · obtain ⟨hcfg, hchain, hedges⟩ := exec_movesOneLine hu
    exact ⟨u, rfl, hcfg, hchain, hedges⟩
  · exact ⟨_, rfl, .of_same rfl rfl rfl⟩

/-! ### The chain's reaction (R112 to R114) -/

theorem ExtChain.clock_sh_getElem? (d : Level) {c : ExtChain} {j : Nat} (hj : j < c.sh.length) :
    (c.clock d).sh[j]? = (d :: c.sh)[j]? := by
  rw [ExtChain.clock_eq_shiftIn]
  exact List.getElem?_take_of_lt hj

section
variable {s u : State} (h : MovesOneLine s u) (hs : wfChain s = true)
include h hs

theorem MovesOneLine.not_both_rise :
    ¬(LineRises s.cfg.pinShcp s.ports u.ports ∧ LineRises s.cfg.pinStcp s.ports u.ports) := by
  rintro ⟨hclk, hlatch⟩
  obtain ⟨-, -, hne⟩ := wfPins_ne ((wfChain_iff s).mp hs).1
  exact hne (h.edges _ _ hclk hlatch)

variable (hu : wfChain u = true)
include hu

theorem MovesOneLine.chainAfter_eq :
    chainAfter s u = s.chain.react (rising (lineDrive s.cfg.pinShcp s.ports) (lineDrive s.cfg.pinShcp u.ports))
      (rising (lineDrive s.cfg.pinStcp s.ports) (lineDrive s.cfg.pinStcp u.ports))
      ((lineDrive s.cfg.pinDs u.ports).getD false) := by
  simp only [chainAfter, hs, hu, h.cfg, h.chain, Bool.and_self, if_true]

theorem MovesOneLine.chainAfter_clock {d : Level} (hclk : LineRises s.cfg.pinShcp s.ports u.ports)
    (hd : lineDrive s.cfg.pinDs u.ports = some d) : chainAfter s u = s.chain.clock d := by
  have hlatch : ¬LineRises s.cfg.pinStcp s.ports u.ports := fun hlatch => h.not_both_rise hs ⟨hclk, hlatch⟩
  rw [← rising_eq_true_iff] at hclk hlatch
  rw [h.chainAfter_eq hs hu, hclk, Bool.eq_false_iff.mpr hlatch, hd]
  rfl

theorem MovesOneLine.chainAfter_latch (hlatch : LineRises s.cfg.pinStcp s.ports u.ports) :
    chainAfter s u = s.chain.latch := by
  have hclk : ¬LineRises s.cfg.pinShcp s.ports u.ports := fun hclk => h.not_both_rise hs ⟨hclk, hlatch⟩
  rw [← rising_eq_true_iff] at hclk hlatch
  rw [h.chainAfter_eq hs hu, hlatch, Bool.eq_false_iff.mpr hclk]
  rfl

theorem MovesOneLine.chainAfter_noEdge (hclk : ¬LineRises s.cfg.pinShcp s.ports u.ports)
    (hlatch : ¬LineRises s.cfg.pinStcp s.ports u.ports) : chainAfter s u = s.chain := by
  rw [← rising_eq_true_iff] at hclk hlatch
  rw [h.chainAfter_eq hs hu, Bool.eq_false_iff.mpr hclk, Bool.eq_false_iff.mpr hlatch]
  rfl

end

/-- Settles O37: a step makes at most one line rise, and the chain reacts to that edge alone. -/
theorem chainMovesOnlyOnRisingEdges : Obligations.ChainMovesOnlyOnRisingEdges := by
  intro s t hc hstages hstep hs ht
  obtain ⟨u, rfl, h⟩ := step_movesOneLine hstep
  have hu : wfChain u = true := ht
  refine ⟨h.not_both_rise hs, ?_⟩
  rw [settle_ports, settle_chain]
  split_ifs with hclk hlatch
  · obtain ⟨⟨d, hd⟩, -⟩ := lineDrive_of_wfChain hu
    rw [h.cfg] at hd
    obtain ⟨hsh, -⟩ := (chainWf_iff s).mp hstages
    obtain ⟨-, -, -, hmExt⟩ := (Config.wf_iff _).mp hc
    rw [h.chainAfter_clock hs hu hclk hd, hd]
    refine ⟨?_, fun j hj₀ hj => ?_, (ExtChain.clock_sh_length d s.chain).trans hsh, rfl⟩
    · rw [ExtChain.clock_sh_getElem? d (by rw [hsh]; unfold Config.stages; omega), List.getElem?_cons_zero]
    · rw [ExtChain.clock_sh_getElem? d (by rwa [hsh]), List.getElem?_cons, if_neg (Nat.ne_of_gt hj₀)]
  · rw [h.chainAfter_latch hs hu hlatch]
    exact ⟨rfl, rfl⟩
  · exact h.chainAfter_noEdge hs hu hclk hlatch

/-! ### What one ShiftOut leaves (R116, R117) -/

/-- The buffer stands first, the pad bit after it, and the rest is what stood that many stages lower. -/
theorem ExtChain.shiftIn_buf_getElem? {s : State} (hl : s.buf.length = s.cfg.nbits) {j : Nat}
    (hj : j < s.chain.sh.length) :
    (s.chain.shiftIn (s.buf ++ padBits s)).sh[j]? =
      if j < s.cfg.nbits then s.buf[j]?
      else if j < s.cfg.nbits + s.cfg.pad.toNat then some (Config.draw s.draws)
      else s.chain.sh[j - (s.cfg.nbits + s.cfg.pad.toNat)]? := by
  have hlen : (s.buf ++ padBits s).length = s.cfg.nbits + s.cfg.pad.toNat := by
    rw [List.length_append, hl, padBits_length]
  rw [ExtChain.shiftIn, List.getElem?_take_of_lt hj]
  split_ifs with hbuf hpad
  · rw [List.append_assoc, List.getElem?_append_left (by rwa [hl])]
  · rw [List.getElem?_append_left (by rwa [hlen]), List.getElem?_append_right (by omega)]
    cases hp : s.cfg.pad with
    | false => rw [hp, Bool.toNat_false] at hpad; omega
    | true =>
      have hlast : j - s.buf.length = 0 := by rw [hp, Bool.toNat_true] at hpad; omega
      rw [hlast, padBits, if_pos hp, List.getElem?_cons_zero]
  · rw [List.getElem?_append_right (by rw [hlen]; omega), hlen]

/-- Settles O38: the chain holds what the ShiftOut clocked in, latched. -/
theorem shiftOutLoadsTheExternalChain : Obligations.ShiftOutLoadsTheExternalChain := by
  intro s _ hl hstages hw
  obtain ⟨hsh, -⟩ := (chainWf_iff s).mp hstages
  rw [wfChain_shiftOut, shiftOut_chain hw hl]
  exact ⟨hw, fun j hj => ExtChain.shiftIn_buf_getElem? hl (hsh ▸ hj), rfl⟩

end Sys2Proof.Machine
end

section
/-! PROOFS, 60_exceptions.md. The outcomes of a word (R120, R121, R122, R123, R125) and the parameters of the instance (R129). -/

namespace Sys2Proof.Machine

/-! ### An illegal word (R122) -/

/-- An idle SRSER that is offered an illegal word only answers, and the chain reacts. -/
theorem step_offer_illegal {s : State} {w : Word} {rest : List Input} {e : Illegal} (hb : busy s = false)
    (hi : s.inputs = .offer w :: rest) (hd : decode w = .error e) :
    step s = .next (settle s (respond .illegalCommand { s with inputs := rest })) := by
  simp [step, hi, hb, accept, hd]

/-- Settles O11: the accepting micro-step of an illegal word is its response and nothing else. -/
theorem illegalWordOnlyGivesItsResponse : Obligations.IllegalWordOnlyGivesItsResponse :=
  fun _ _ _ _ hb hi hd => ⟨_, step_offer_illegal hb hi hd, rfl, rfl⟩

/-! ### The index check (R120, R121) -/

theorem indexCheck_eq_false_iff (c : Config) (r p : Byte) :
    indexCheck c r p = false ↔ r.toNat = 0 ∨ c.m < r.toNat ∨ 7 < p.toNat := by
  rw [Bool.eq_false_iff, ne_eq, indexCheck_iff]
  omega

/-- INITCH checks its register index alone: the local position it starts at is always in range. -/
theorem indexCheck_zero_eq_false_iff (c : Config) (r : Byte) :
    indexCheck c r 0#8 = false ↔ r.toNat = 0 ∨ c.m < r.toNat := by
  simp [indexCheck_eq_false_iff]

/-! ### The pin checks (R120, R123) -/

theorem pinDir_response (pin : Byte) (v : Level) (s : State) :
    (pinDir pin v s).1.response = if validWritePin pin then .ok 0#16 else .pinIgnored 0#16 := by
  rcases hd : decodeW pin with _ | ⟨g, k⟩
  · simp [pinDir_invalid hd, validWritePin_iff, hd, PinDone.response]
  · simp [pinDir_valid hd, validWritePin_iff, hd, PinDone.response]

theorem pinWrite_response (pin : Byte) (v : Level) (s : State) :
    (pinWrite pin v s).1.response = if validWritePin pin then .ok 0#16 else .pinIgnored 0#16 := by
  rcases hd : decodeW pin with _ | ⟨g, k⟩
  · simp [pinWrite_invalid hd, validWritePin_iff, hd, PinDone.response]
  · simp [pinWrite_valid hd, validWritePin_iff, hd, PinDone.response]

theorem exec_pinrd_rsp {pin : Byte} {s t : State} (h : exec (.pinrd pin) s = .next t) :
    if validReadPin pin then ∃ q, t.rsp = some (.ok q) else t.rsp = some (.pinIgnored 0#16) := by
  rcases hd : decodeR pin with _ | ⟨g, k⟩
  · rw [exec_pinrd_invalid hd] at h
    injection h with h; subst h
    simp [validReadPin_iff, hd]
  · rw [exec_pinrd_valid hd] at h
    injection h with h; subst h
    simp [validReadPin_iff, hd]

/-! ### The outcome of a legal word (R125) -/

/-- The outcome of a command under the parameters `c`, as `t` shows it: the response, and whether SRSER is busy. A command that
starts no ShiftOut leaves SRSER as busy as it was, `b`. -/
def CommandOutcome (c : Config) (b : Bool) (t : State) : Instr → Prop
  | .cfgdir pin _ => t.rsp = some (if validWritePin pin then .ok 0#16 else .pinIgnored 0#16) ∧ busy t = b
  | .pinwr pin _ => t.rsp = some (if validWritePin pin then .ok 0#16 else .pinIgnored 0#16) ∧ busy t = b
  | .pinrd pin =>
      busy t = b ∧ if validReadPin pin then ∃ q, t.rsp = some (.ok q) else t.rsp = some (.pinIgnored 0#16)
  | .abspos r p =>
      busy t = b ∧ if indexCheck c r p then ∃ q, t.rsp = some (.ok q) else t.rsp = some .indexRange
  | .regwr r p _ =>
      if indexCheck c r p then t.rsp = none ∧ busy t = true else t.rsp = some .indexRange ∧ busy t = b
  | .initch r =>
      if indexCheck c r 0#8 then t.rsp = none ∧ busy t = true else t.rsp = some .indexRange ∧ busy t = b
  | .shout => t.rsp = none ∧ busy t = true

theorem busy_congr {s t : State} (h : t.seq = s.seq) : busy t = busy s := by
  rw [busy, h, busy]

@[simp] theorem busy_respond (q : Response) (s : State) : busy (respond q s) = busy s := rfl
@[simp] theorem busy_startShift (iact : Bool) (s : State) : busy (startShift iact s) = true := rfl

theorem exec_outcome {i : Instr} {s t : State} (h : exec i s = .next t) : CommandOutcome s.cfg (busy s) t i := by
  cases i with
  | cfgdir pin v =>
    injection h with h; subst h
    exact ⟨congrArg some (pinDir_response pin v s), busy_congr (pinDir_seq pin v s)⟩
  | pinwr pin v =>
    injection h with h; subst h
    exact ⟨congrArg some (pinWrite_response pin v s), busy_congr (pinWrite_seq pin v s)⟩
  | pinrd pin =>
    refine ⟨?_, exec_pinrd_rsp h⟩
    injection h with h; subst h
    exact busy_congr (by rw [respond_seq, pinRead_frame])
  | abspos r p =>
    cases hc : indexCheck s.cfg r p
    · rw [exec_abspos_range hc] at h; injection h with h; subst h
      simp [CommandOutcome, hc]
    · rw [exec_abspos_ok hc] at h; injection h with h; subst h
      simp [CommandOutcome, hc]
  | regwr r p v =>
    cases hc : indexCheck s.cfg r p
    · rw [exec_regwr_range hc] at h; injection h with h; subst h
      simp [CommandOutcome, hc]
    · rw [exec_regwr_ok hc] at h; injection h with h; subst h
      simp [CommandOutcome, hc]
  | initch r =>
    cases hc : indexCheck s.cfg r 0#8
    · rw [exec_initch_range hc] at h; injection h with h; subst h
      simp [CommandOutcome, hc]
    · rw [exec_initch_ok hc] at h; injection h with h; subst h
      simp [CommandOutcome, hc]
  | shout => injection h with h; subst h; exact ⟨rfl, rfl⟩

/-- Settles O47: the decoder singles out the illegal words, and the accepting micro-step of a command has the command's
outcome. -/
theorem outcomesFollowThePriority : Obligations.OutcomesFollowThePriority := by
  intro s w rest hb hi
  cases hd : decode w with
  | error e => exact ⟨_, step_offer_illegal hb hi hd, rfl, hb⟩
  | ok i =>
    obtain ⟨u, hu⟩ := exec_answers i { s with inputs := rest }
    have hidle : busy { s with inputs := rest } = false := hb
    have hout := exec_outcome hu
    rw [hidle] at hout
    refine ⟨settle s u, by rw [step_offer hb hi hd, hu, settleOutcome_next], ?_⟩
    cases i with
    | cfgdir | pinwr | pinrd | abspos | regwr | initch | shout => exact hout

/-! ### Where IndexRange comes from (R121) -/

/-- A command answered with IndexRange takes an index, and its check failed. -/
theorem CommandOutcome.index_out_of_range {c : Config} {b : Bool} {t : State} {i : Instr} (h : CommandOutcome c b t i)
    (ht : t.rsp = some .indexRange) :
    (∃ r p, (i = .abspos r p ∨ ∃ v, i = .regwr r p v) ∧ (r.toNat = 0 ∨ c.m < r.toNat ∨ 7 < p.toNat)) ∨
    ∃ r, i = .initch r ∧ (r.toNat = 0 ∨ c.m < r.toNat) := by
  cases i with
  | cfgdir pin v | pinwr pin v =>
    obtain ⟨hrsp, -⟩ := h
    rw [ht] at hrsp
    split at hrsp <;> cases hrsp
  | pinrd pin =>
    obtain ⟨-, hrsp⟩ := h
    simp [ht] at hrsp
  | abspos r p =>
    obtain ⟨-, hrsp⟩ := h
    refine .inl ⟨r, p, .inl rfl, (indexCheck_eq_false_iff ..).mp ?_⟩
    simpa [ht] using hrsp
  | regwr r p v =>
    refine .inl ⟨r, p, .inr ⟨v, rfl⟩, (indexCheck_eq_false_iff ..).mp ?_⟩
    by_contra hc
    simp [CommandOutcome, hc, ht] at h
  | initch r =>
    refine .inr ⟨r, rfl, (indexCheck_zero_eq_false_iff ..).mp ?_⟩
    by_contra hc
    simp [CommandOutcome, hc, ht] at h
  | shout =>
    obtain ⟨hrsp, -⟩ := h
    rw [ht] at hrsp
    cases hrsp

/-- The sequencer's only response is `OK`, so an IndexRange it ends with was there before. -/
theorem seqStep_indexRange {s t : State} (h : seqStep s = .next t) (ht : t.rsp = some .indexRange) :
    s.rsp = some .indexRange := by
  rcases seqStep_cases h with ⟨-, rfl⟩ | ⟨-, _, _, -, -, -, -, -, -, ⟨hrsp, -⟩ | ⟨hrsp, -⟩⟩
  · exact ht
  · exact hrsp ▸ ht
  · rw [hrsp] at ht; cases ht

theorem step_indexRange {s t : State} (h : step s = .next t) (ht : t.rsp = some .indexRange) :
    s.rsp = some .indexRange ∨
    (busy s = false ∧ ∃ w rest i, s.inputs = .offer w :: rest ∧ decode w = .ok i ∧
      ∃ u, exec i { s with inputs := rest } = .next u ∧ u.rsp = some .indexRange) := by
  rcases step_cases h with ⟨u, rfl, hu, -⟩ | ⟨rest, u, -, rfl, hu⟩ | ⟨a, b, rest, -, rfl⟩ | ⟨rest, -, rfl⟩ |
    ⟨hb, w, rest, hi, ⟨i, u, hd, hu, rfl⟩ | ⟨e, -, rfl⟩⟩
  · exact .inl (seqStep_indexRange hu ht)
  · exact .inl (seqStep_indexRange hu ht :)
  · exact .inl ht
  · cases ht
  · exact .inr ⟨hb, w, rest, i, hi, hd, u, hu, ht⟩
  · cases ht

/-- Settles O26: a failed index check gives the response alone, and the outcomes of the commands and of the sequencer show that
nothing else raises IndexRange. -/
theorem indexFaultHasNoEffectButItsResponse : Obligations.IndexFaultHasNoEffectButItsResponse := by
  refine ⟨rfl, fun r p v s hr => ?_, fun r s hr => ?_, fun i s t h ht => (exec_outcome h).index_out_of_range ht,
    fun _ _ => step_indexRange⟩
  · have hc := (indexCheck_eq_false_iff ..).mpr hr
    exact ⟨exec_abspos_range hc, exec_regwr_range hc⟩
  · exact exec_initch_range ((indexCheck_zero_eq_false_iff ..).mpr hr)

/-! ### The parameters of the instance (R129) -/

/-- Settles O43: no move touches the parameters, and neither does the chain's reaction. -/
theorem noStepChangesTheConfiguration : Obligations.NoStepChangesTheConfiguration := by
  intro s t h
  obtain ⟨u, rfl, hmove⟩ := step_movesOneLine h
  exact hmove.cfg

end Sys2Proof.Machine
end

section
/-! PROOFS, 70_reset_and_hazards.md. A reset (R140, R141), a quiescent SRSER (R152), a word offered while a command is in
progress (R146), and the writers of the direction registers (R143). -/

namespace Sys2Proof.Machine

/-! ### A reset (R140, R141) -/

theorem step_reset {s : State} {rest : List Input} (hi : s.inputs = .reset :: rest) :
    step s = .next (settle s (resetState { s with inputs := rest })) := by
  simp only [step, hi, settleOutcome_next]

/-- Settles O13: the step stores the reset state, and the chain's reaction leaves it alone. -/
theorem resetGivesEveryRegisterItsResetValue : Obligations.ResetGivesEveryRegisterItsResetValue := by
  intro s rest hi
  refine ⟨_, step_reset hi, rfl, ?_, ?_, rfl, rfl, rfl, rfl, rfl, rfl, rfl⟩
  · exact List.length_replicate
  · exact fun _ hb => List.eq_of_mem_replicate hb

/-! ### A quiescent SRSER (R152) -/

theorem step_quiescent {s : State} (hb : busy s = false) (hi : s.inputs = []) : step s = .next (settle s s) := by
  rw [step_eq_settle_move, move, hi]
  exact congrArg (settleOutcome s) (seqStep_idle ((busy_false_iff s).mp hb))

/-- Settles O15: in IDLE the micro-step is none, and a chain whose lines are driven and do not change stays as it is. -/
theorem quiescentStepChangesNothing : Obligations.QuiescentStepChangesNothing :=
  fun _ hb hi => ⟨_, step_quiescent hb hi, rfl, settle_same rfl rfl⟩

/-! ### A word offered while a command is in progress (R146) -/

theorem seqStep_inputs {s t : State} (h : seqStep s = .next t) : t.inputs = s.inputs := by
  rcases seqStep_cases h with ⟨-, rfl⟩ | ⟨-, _, _, -, hinputs, -⟩
  · rfl
  · exact hinputs

/-- Settles O12: a busy SRSER takes a micro-step of the sequencer, which neither reads nor writes the moves to come. -/
theorem offeredWordWaitsWhileBusy : Obligations.OfferedWordWaitsWhileBusy := by
  intro s t w rest hb hi h
  rw [step_busy hb (.inr ⟨w, rest, hi⟩), settleOutcome_eq_next] at h
  obtain ⟨u, hu, rfl⟩ := h
  have hinputs : u.inputs = .offer w :: rest := (seqStep_inputs hu).trans hi
  refine ⟨by simp [cmdReady, hb], by simp [cmdOffered, hinputs], hinputs.trans hi.symm, ?_⟩
  rw [step_busy (s := { s with inputs := [] }) hb (.inl rfl), seqStep_withInputs hu []]
  rfl

/-! ### The writers of the direction registers (R143) -/

theorem OnlyOutputsChange.directions {before after : Ports} (h : OnlyOutputsChange before after) :
    after.dira = before.dira ∧ after.dirb = before.dirb := by
  rw [h]
  exact ⟨rfl, rfl⟩

theorem seqStep_onlyOutputs {s t : State} (h : seqStep s = .next t) : OnlyOutputsChange s.ports t.ports := by
  rcases seqStep_cases h with ⟨-, rfl⟩ | ⟨-, pin, v, -, -, -, hports, -⟩
  · exact .refl _
  · exact hports ▸ pinWrite_ports_frame pin v s

/-- A write of an output bit leaves the direction registers and the pads' levels. -/
theorem WritesOutBit.onlyOutputs {pin : Byte} {v : Level} {before after : Ports} (h : WritesOutBit pin v before after) :
    OnlyOutputsChange before after := by
  obtain ⟨rfl, -⟩ := h
  rcases decodeW pin with _ | ⟨g, k⟩
  · exact .refl _
  · cases g <;> rfl

/-- A write of the direction bit of a pin that reaches none changes no register. -/
theorem WritesDirBit.eq_of_invalid {pin : Byte} {v : Level} {before after : Ports} (h : WritesDirBit pin v before after)
    (hpin : validWritePin pin ≠ true) : after = before := by
  obtain ⟨rfl, -⟩ := h
  rcases hd : decodeW pin with _ | x
  · rfl
  · exact absurd ((validWritePin_iff pin).mpr ⟨x, hd⟩) hpin

/-- Every command but a CFGDIR of a valid write pin leaves the direction registers alone when it is accepted. -/
theorem exec_onlyOutputs {i : Instr} {s t : State} (h : exec i s = .next t) :
    OnlyOutputsChange s.ports t.ports ∨ ∃ pin v, i = .cfgdir pin v ∧ validWritePin pin = true := by
  have heffect := exec_pinEffect h
  cases i with
  | cfgdir pin v =>
    obtain ⟨hw, -⟩ := heffect
    by_cases hpin : validWritePin pin = true
    · exact .inr ⟨pin, v, rfl, hpin⟩
    · exact .inl (hw.eq_of_invalid hpin ▸ .refl _)
  | pinwr pin v =>
    obtain ⟨hw, -⟩ := heffect
    exact .inl hw.onlyOutputs
  | pinrd | abspos | regwr | initch | shout =>
    obtain ⟨hports, -⟩ := heffect
    exact .inl (hports ▸ .refl _)

/-- Settles O45: a micro-step writes output bits only, an accepted command a direction bit only as a CFGDIR of a valid write
pin, and of the other moves only a reset does. -/
theorem onlyCfgdirAndResetChangeADirection : Obligations.OnlyCfgdirAndResetChangeADirection := by
  intro s t h hdir
  have hchange : ¬(t.ports.dira = s.ports.dira ∧ t.ports.dirb = s.ports.dirb) := by simpa [imp_iff_not_or] using hdir
  rcases step_cases h with ⟨u, rfl, hu, -⟩ | ⟨rest, u, -, rfl, hu⟩ | ⟨a, b, rest, -, rfl⟩ | ⟨rest, hi, -⟩ |
    ⟨hb, w, rest, hi, ⟨i, u, hd, hu, rfl⟩ | ⟨e, -, rfl⟩⟩
  · exact absurd (seqStep_onlyOutputs hu).directions hchange
  · exact absurd (seqStep_onlyOutputs hu).directions hchange
  · exact absurd ⟨rfl, rfl⟩ hchange
  · exact .inl ⟨rest, hi⟩
  · rcases exec_onlyOutputs hu with hout | ⟨pin, v, rfl, hpin⟩
    · exact absurd hout.directions hchange
    · exact .inr ⟨hb, w, rest, pin, v, hi, hd, hpin⟩
  · exact absurd ⟨rfl, rfl⟩ hchange

end Sys2Proof.Machine
end

section
/-! PROOFS, 70_reset_and_hazards.md. The boot sequence after a reset (R143): the control pins become outputs, and every INITCH
serialises a buffer of zeros. -/

namespace Sys2Proof.Machine

/-! ### Lists of low levels -/

/-- The first `n` levels are low; where the list ends before, a level that is not there counts as low, as in `imageByte`. -/
def LowBelow (n : Nat) (bits : List Level) : Prop := ∀ j < n, bits.getD j false = false

theorem LowBelow.replicate (n k : Nat) : LowBelow n (List.replicate k false) := by
  intro j _
  rw [List.getD_eq_getElem?_getD, List.getElem?_replicate]
  split <;> rfl

theorem imageByte_eq_zero {m r : Nat} {bits : List Level} (h : LowBelow (8 * m) bits) (hr : 1 ≤ r) (hm : r ≤ m) :
    imageByte bits r = 0 := by
  have hnil : imageByte bits r = imageByte [] r := imageByte_congr fun p hp => h _ (by omega)
  rw [hnil]
  simp [imageByte]

/-- An INITCH writes nothing but zeros. -/
theorem LowBelow.clearBits {n : Nat} {s : State} (h : LowBelow n s.buf) (r : Byte) (k p : Nat) :
    LowBelow n (clearBits r k p s).buf := by
  intro j hj
  have hlow := h j hj
  rw [List.getD_eq_getElem?_getD] at hlow ⊢
  rw [clearBits_getElem?]
  split
  · cases s.buf[j]? <;> rfl
  · exact hlow

/-- A ShiftOut of a buffer of zeros leaves the outputs low, as far as the chain reaches. -/
theorem shiftOut_q_low {s : State} (h : ShiftReady s) (hlow : LowBelow s.cfg.nbits s.buf) :
    LowBelow s.cfg.nbits (shiftOut s).chain.q := by
  intro j hj
  have hbit := hlow j hj
  rw [List.getD_eq_getElem?_getD] at hbit ⊢
  simp only [shiftOut_chain h.lines h.buf_length, ExtChain.latch, ExtChain.shiftIn, List.append_assoc, List.getElem?_take]
  split
  · rwa [List.getElem?_append_left (by rw [h.buf_length]; exact hj)]
  · rfl

/-! ### States of the boot sequence -/

/-- Between two commands of the boot sequence: the parameters are `c`, the moves `rest` are still to come, and every buffer bit
is 0. -/
structure Booting (c : Config) (rest : List Input) (s : State) : Prop where
  cfg : s.cfg = c
  inputs : s.inputs = rest
  inv : s.Inv
  idle : busy s = false
  low : LowBelow c.nbits s.buf

/-- The moves of a host that offers the commands one after another. -/
def offers (is : List Instr) : List Input := is.map fun i => .offer (encode i)

theorem offers_wait (is : List Instr) : offersWait (offers is) := by
  cases is with
  | nil => exact .inl rfl
  | cons i is => exact .inr ⟨_, _, rfl⟩

/-- Whatever the state was, a reset leaves one that meets the invariant: the control lines float, so the chain's contents are
arbitrary ones of the right length. -/
theorem settle_resetState_inv (b : State) {s : State} (hc : s.cfg.wf = true) : (settle b (resetState s)).Inv := by
  have hfloat : wfChain (resetState s) = false := by
    rw [wfChain, lineDrive_resetState]
    simp
  have hchain : chainAfter b (resetState s) = ExtChain.arbitrary s.cfg.stages s.chain.moments := by
    simp [chainAfter, hfloat]
  refine ⟨hc, Memory.wf_resetState s, (seqWf_iff _).mpr (Seq.reset_inRange hc), (rspWf_iff _).mpr fun _ => rfl,
    (chainWf_iff _).mpr ?_⟩
  rw [settle_chain, hchain]
  simp [ExtChain.arbitrary]

theorem booting_of_reset {s : State} {rest : List Input} (hc : s.cfg.wf = true) (hi : s.inputs = .reset :: rest) :
    ∃ t, step s = .next t ∧ Booting s.cfg rest t :=
  ⟨_, step_reset hi, rfl, rfl, settle_resetState_inv s (s := { s with inputs := rest }) hc, rfl,
    LowBelow.replicate _ _⟩

/-! ### The control pins become outputs -/

/-- The line of a pin has a level. -/
def Driven (pin : Byte) (s : State) : Prop := (lineDrive pin s.ports).isSome = true

/-- CFGDIR to output drives its own pin, and any other is driven as before. -/
theorem driven_pinDir {p : Byte} (pin : Byte) {s : State} (hp : validWritePin p = true) :
    Driven p (pinDir pin true s).2 ↔ p = pin ∨ Driven p s := by
  obtain ⟨⟨g, k⟩, hd⟩ := (validWritePin_iff p).mp hp
  have hline : ∀ t : State, Driven p t ↔ dirBit t.ports g k = true := by
    intro t
    simp [Driven, lineDrive, hd, padDrive]
  simp [hline, pinDir_dirBit, decodeW_eq_iff hd]

theorem booting_cfgdir {c : Config} {rest : List Input} {pin : Byte} {s : State}
    (h : Booting c (.offer (encode (.cfgdir pin true)) :: rest) s) :
    ∃ t, step s = .next t ∧ Booting c rest t ∧
      ∀ p, validWritePin p = true → (p = pin ∨ Driven p s) → Driven p t := by
  have hstep := step_offer h.idle h.inputs (decode_encode _)
  rw [exec_cfgdir, settleOutcome_next] at hstep
  obtain ⟨t, hstep', hinv⟩ := everyStepCompletesAndKeepsTheInvariant s h.inv
  obtain rfl : _ = t := Host.Outcome.next.inj (hstep.symm.trans hstep')
  refine ⟨_, hstep, ⟨?_, ?_, hinv, ?_, ?_⟩, fun p hp hdr => ?_⟩
  · simpa using h.cfg
  · simp
  · exact (busy_congr (by simp)).trans h.idle
  · simpa using h.low
  · exact (driven_pinDir pin (s := { s with inputs := rest }) hp).mpr hdr

/-- The CFGDIRs of a list of pins make each of them an output. -/
theorem run_cfgdirs {c : Config} {rest : List Input} (pins : List Byte) {s : State}
    (h : Booting c (offers (pins.map (.cfgdir · true)) ++ rest) s) :
    ∃ t, runSteps pins.length s = .next t ∧ Booting c rest t ∧
      ∀ p, validWritePin p = true → (p ∈ pins ∨ Driven p s) → Driven p t := by
  induction pins generalizing s with
  | nil => exact ⟨s, rfl, h, fun p _ hp => by simpa using hp⟩
  | cons pin pins ih =>
    obtain ⟨u, hstep, hu, hdriven⟩ := booting_cfgdir h
    obtain ⟨t, hrun, ht, hdriven'⟩ := ih hu
    refine ⟨t, (runSteps_succ hstep).trans hrun, ht, fun p hp hcase => hdriven' p hp ?_⟩
    rw [List.mem_cons, or_assoc] at hcase
    rcases hcase with hpin | hmem | hdr
    · exact .inr (hdriven p hp (.inl hpin))
    · exact .inl hmem
    · exact .inr (hdriven p hp (.inr hdr))

/-! ### Every INITCH serialises zeros -/

theorem clearBits_inputs (r : Byte) (n p : Nat) (s : State) : (clearBits r n p s).inputs = s.inputs := by
  have hone : ∀ i u, (shiftOut (bufWrite i false u)).inputs = u.inputs := by
    intro i u
    obtain ⟨-, hinputs, -⟩ := shiftOut_frame (bufWrite i false u)
    exact hinputs
  induction n generalizing p s with
  | zero => exact hone _ s
  | succ n ih => exact (ih ..).trans (hone _ s)

theorem clearBits_frame (r : Byte) (n p : Nat) {s : State} (h : ShiftReady s) :
    (clearBits r n p s).cfg = s.cfg ∧ wfChain (clearBits r n p s) = true := by
  obtain ⟨v, hv, hcfg, hready⟩ := clearBits_eq_shiftOut r n p h
  obtain ⟨hcfg', -⟩ := shiftOut_frame v
  rw [hv]
  exact ⟨hcfg'.trans hcfg, hready.shiftOut.lines⟩

/-- The last ShiftOut of an INITCH that finds a buffer of zeros leaves the outputs low. -/
theorem clearBits_q_low (r : Byte) (n p : Nat) {s : State} (h : ShiftReady s) (hlow : LowBelow s.cfg.nbits s.buf) :
    LowBelow s.cfg.nbits (clearBits r n p s).chain.q := by
  have hlow' := hlow.clearBits r n p
  obtain ⟨v, hv, hcfg, hready⟩ := clearBits_eq_shiftOut r n p h
  obtain ⟨-, -, hbuf, -⟩ := shiftOut_frame v
  rw [hv, hbuf, ← hcfg] at hlow'
  rw [hv, ← hcfg]
  exact shiftOut_q_low hready hlow'

/-- The state in which an accepted INITCH has still to write its first position, with the moves `rest` to come. -/
def initchStart (r : Byte) (rest : List Input) (s : State) : State :=
  startShift true { s with inputs := rest, seq := { s.seq with ireg := r, ipos := 0#3 } }

/-- An INITCH that finds the lines driven, from its acceptance to its response, while the moves behind it wait. -/
theorem run_initch {r : Byte} {rest : List Input} {s : State} (h : ShiftReady s) (hb : busy s = false)
    (hi : s.inputs = .offer (encode (.initch r)) :: rest) (hrest : offersWait rest)
    (hr : indexCheck s.cfg r 0#8 = true) :
    ∃ q : Seq, q.phase = .idle ∧ runSteps (1 + 8 * s.cfg.shiftEvents) s =
      .next (respond (.ok 0#16) (withSeq q (clearBits r 7 0 (initchStart r rest s)))) := by
  have hstep : step s = .next (bufWrite (absPos r 0#8) false (initchStart r rest s)) := by
    rw [step_offer hb hi (decode_encode _), exec_initch_ok (s := { s with inputs := rest }) hr, settleOutcome_next]
    exact congrArg Host.Outcome.next (settle_same rfl rfl h.lines)
  exact ⟨_, rfl, runSteps_one_add hstep
    (run_clearBits (n := 7) (s := initchStart r rest s) h.cfgWf h.buf_length rfl hrest rfl rfl rfl hr)⟩

theorem booting_initch {c : Config} {rest : List Input} {r : Byte} {s : State}
    (h : Booting c (.offer (encode (.initch r)) :: rest) s) (hw : wfChain s = true) (hr : indexCheck c r 0#8 = true)
    (hrest : offersWait rest) :
    ∃ t, runSteps (1 + 8 * c.shiftEvents) s = .next t ∧ Booting c rest t ∧ wfChain t = true ∧
      LowBelow c.nbits t.chain.q := by
  obtain ⟨rfl, hi, hinv, hb, hlow⟩ := h
  have hready := hinv.shiftReady hw
  have hstart : ShiftReady (initchStart r rest s) :=
    ⟨hready.cfgWf, hready.buf_length, hready.lines, hready.stages⟩
  obtain ⟨q, hq, hrun⟩ := run_initch hready hb hi hrest hr
  obtain ⟨hcfg, hlines⟩ := clearBits_frame r 7 0 hstart
  have hinputs := clearBits_inputs r 7 0 (initchStart r rest s)
  have hbuf := LowBelow.clearBits (s := initchStart r rest s) hlow r 7 0
  have hq_low := clearBits_q_low r 7 0 hstart hlow
  generalize clearBits r 7 0 (initchStart r rest s) = u at *
  exact ⟨_, hrun, ⟨hcfg, hinputs, runSteps_inv hinv hrun, (busy_false_iff _).mpr hq, hbuf⟩, hlines, hq_low⟩

/-- The INITCHs of a list of registers, of which there is at least one. -/
theorem run_initchs {c : Config} (rs : List Byte) {r : Byte} {s : State}
    (h : Booting c (offers ((r :: rs).map .initch)) s) (hw : wfChain s = true)
    (hrs : ∀ x ∈ r :: rs, indexCheck c x 0#8 = true) :
    ∃ t, runSteps ((r :: rs).length * (1 + 8 * c.shiftEvents)) s = .next t ∧ Booting c [] t ∧ wfChain t = true ∧
      LowBelow c.nbits t.chain.q := by
  induction rs generalizing r s with
  | nil =>
    obtain ⟨t, hrun, ht⟩ := booting_initch h hw (hrs r (List.mem_singleton_self r)) (offers_wait [])
    exact ⟨t, by simpa using hrun, ht⟩
  | cons r' rs ih =>
    obtain ⟨hr, hrs⟩ := List.forall_mem_cons.mp hrs
    obtain ⟨u, hrun, hu, hwu, -⟩ := booting_initch h hw hr (offers_wait _)
    obtain ⟨t, hrest, ht⟩ := ih hu hwu hrs
    refine ⟨t, ?_, ht⟩
    rw [List.length_cons, Nat.succ_mul, Nat.add_comm, runSteps_add hrun]
    exact hrest

/-! ### The boot sequence -/

/-- The registers `1` to `M`, in the order of `bootCommands`. -/
def bootRegisters (c : Config) : List Byte := (List.range c.m).map fun k => BitVec.ofNat 8 (k + 1)

theorem bootCommands_eq (c : Config) :
    bootCommands c = [c.pinStcp, c.pinShcp, c.pinDs].map (.cfgdir · true) ++ (bootRegisters c).map .initch := by
  simp [bootCommands, bootRegisters]

theorem indexCheck_bootRegisters {c : Config} (hc : c.wf = true) : ∀ r ∈ bootRegisters c, indexCheck c r 0#8 = true := by
  intro r hr
  obtain ⟨k, hk, rfl⟩ := List.mem_map.mp hr
  obtain ⟨-, hm, -⟩ := (Config.wf_iff c).mp hc
  have hkm := List.mem_range.mp hk
  have hval : (BitVec.ofNat 8 (k + 1)).toNat = k + 1 := by
    rw [BitVec.toNat_ofNat]
    exact Nat.mod_eq_of_lt (by omega)
  exact (indexCheck_iff ..).mpr ⟨by omega, by omega, Nat.zero_le 7⟩

theorem wfPins_valid {c : Config} (h : c.wfPins = true) :
    validWritePin c.pinDs = true ∧ validWritePin c.pinShcp = true ∧ validWritePin c.pinStcp = true := by
  simp only [Config.wfPins, Bool.and_eq_true] at h
  obtain ⟨⟨⟨⟨⟨hds, hshcp⟩, hstcp⟩, -⟩, -⟩, -⟩ := h
  exact ⟨hds, hshcp, hstcp⟩

/-- A reset and the three CFGDIRs make `WF_CHAIN` hold, whatever the state was. -/
theorem run_resetAndCfgdirs {s : State} {rest : List Input} (hc : s.cfg.wf = true) (hpins : s.cfg.wfPins = true)
    (hi : s.inputs =
      .reset :: (offers ([s.cfg.pinStcp, s.cfg.pinShcp, s.cfg.pinDs].map (.cfgdir · true)) ++ rest)) :
    ∃ t, runSteps 4 s = .next t ∧ Booting s.cfg rest t ∧ wfChain t = true := by
  obtain ⟨u, hreset, hu⟩ := booting_of_reset hc hi
  obtain ⟨t, hrun, ht, hdriven⟩ := run_cfgdirs _ hu
  obtain ⟨hds, hshcp, hstcp⟩ := wfPins_valid hpins
  refine ⟨t, (runSteps_succ hreset).trans hrun, ht, ?_⟩
  rw [wfChain_iff, ht.cfg]
  exact ⟨hpins, hdriven _ hds (.inl (by simp)), hdriven _ hshcp (.inl (by simp)), hdriven _ hstcp (.inl (by simp))⟩

/-- Settles O40: the reset stores a buffer of zeros, the three CFGDIRs drive the lines, and the INITCHs serialise the zeros. -/
theorem bootClearsTheOutputs : Obligations.BootClearsTheOutputs := by
  intro s hc hpins hi
  have hmoves : s.inputs = .reset :: offers (bootCommands s.cfg) := hi
  rw [bootCommands_eq, offers, List.map_append] at hmoves
  obtain ⟨u, hrun, hu, hw⟩ := run_resetAndCfgdirs hc hpins hmoves
  have hlen : (bootRegisters s.cfg).length = s.cfg.m := by simp [bootRegisters]
  have hindex := indexCheck_bootRegisters hc
  obtain ⟨hm, -⟩ := (Config.wf_iff _).mp hc
  cases hrs : bootRegisters s.cfg with
  | nil => simp [hrs] at hlen; omega
  | cons r rs =>
    rw [hrs] at hu hindex hlen
    obtain ⟨t, hrun', ht, hwt, hlow⟩ := run_initchs rs hu hw hindex
    rw [hlen] at hrun'
    exact ⟨t, (runSteps_add hrun).trans hrun', hwt, ht.idle, ht.inputs, fun k hk hkm _ => imageByte_eq_zero hlow hk hkm⟩

end Sys2Proof.Machine
end
